-- ==== Sys2Proof/Config.lean ====
section
/-! DEFINITION. What is fixed for one machine: the parameters of spec/00_scope.md R8 and the register window's
place and size (spec/20_memory.md R34, R35). -/

namespace Sys2Proof.Config

/-- The platform's choice of BIGNUM_BASE, counted in windows of 64 bytes. OPEN in the spec (R8, R34; 93 U5), so it has
no body: no proof can learn its value. Log entry 5. -/
opaque bignumBaseWindow : Nat

/-- R34: the window is 64 bytes. -/
def windowBytes : Nat := 64

/-- R34: BIGNUM_BASE, the base address of the register window in the host's address space, a multiple of 64. -/
def bignumBase : Nat := windowBytes * bignumBaseWindow

/-- R38: the one admitted access width, in bytes. -/
def accessBytes : Nat := 8

end Sys2Proof.Config
end

