-- ==== Sys2Proof/Word.lean ====
section
/-! DEFINITION. The word types of the Big-Num CORE (spec/00_scope.md R8, R9) and its named constants (R11). -/

namespace Sys2Proof

/-- A 64-bit value, the document's FixedInt: eight bytes, with no sign or length field (R8, R10). -/
abbrev Word := BitVec 64

/-- A 32-bit native value, at the conversion points (R8: NATIVE). -/
abbrev Word32 := BitVec 32

/-- One byte of a value (R9). -/
abbrev Byte := BitVec 8

/-- R11: `ZERO`, all bytes 0x00. -/
abbrev Word.ZERO : Word := 0x0000000000000000#64

/-- R11: `MAX`, all bytes 0xFF. -/
abbrev Word.MAX : Word := 0xFFFFFFFFFFFFFFFF#64

/-- R11: `MIN`, the most negative signed value. -/
abbrev Word.MIN : Word := 0x8000000000000000#64

end Sys2Proof
end

