-- ==== Sys2Proof/Syntax.lean ====
section
/-! DEFINITION. The commands of the BN64 command set: one constructor per row of spec/opcode_table.json
(spec/30_encoding.md R47). -/

namespace Sys2Proof

/-- A command. Every operand but SHL's amount is a fixed data register (R20, R44), so only SHL carries one. -/
inductive Instr where
  /-- R52: `ZERO`. -/
  | zero
  /-- R53: `COPY`. -/
  | copy
  /-- R54: `FROMU32`. -/
  | fromu32
  /-- R55: `FROMI32`. -/
  | fromi32
  /-- R56: `TOU32`. -/
  | tou32
  /-- R57: `TOI32`. -/
  | toi32
  /-- R58: `CLROVF`. -/
  | clrovf
  /-- R59: `CMP`. -/
  | cmp
  /-- R60: `SCMP`. -/
  | scmp
  /-- R62: `SHL`, with its amount in bits, a count and not a word (R44). -/
  | shl (amount : Nat)
  /-- R64: `ADD`. -/
  | add
  /-- R65: `SUB`. -/
  | sub
  /-- R68: `MUL`. -/
  | mul
  /-- R71: `DIV`. -/
  | div
  /-- R72: `DIVMOD`. -/
  | divmod
  /-- R74: `NEG`. -/
  | neg
  /-- R76: `SADD`. -/
  | sadd
  /-- R77: `SSUB`. -/
  | ssub
  /-- R78: `SMUL`. -/
  | smul
  /-- R79: `SDIV`. -/
  | sdiv
  deriving DecidableEq, Repr

end Sys2Proof
end

