-- ==== Sys2Proof/WellFormed.lean ====
section
/-! DEFINITION. Which commands have an encoding (spec/30_encoding.md R44). -/

namespace Sys2Proof

/-- R44: the only operand in a command word is SHL's amount, 0 to 255. Log entry 16: what the model does with an amount
that no word has. -/
def Instr.wf : Instr → Bool
  | .shl amount => decide (amount < 256)
  | .zero | .copy | .fromu32 | .fromi32 | .tou32 | .toi32 | .clrovf | .cmp | .scmp | .add | .sub | .mul | .div
  | .divmod | .neg | .sadd | .ssub | .smul | .sdiv => true

/-- `i` is a command that the command word can express. -/
abbrev Instr.WellFormed (i : Instr) : Prop := i.wf = true

end Sys2Proof
end

