-- ==== Sys2Proof/Decode.lean ====
section
/-! DEFINITION. The command word (spec/30_encoding.md R43), its decoder (R45 to R49), its encoder (R47), and the byte
order in which a word is carried (spec/20_memory.md R37). -/

namespace Sys2Proof

/-! ### Byte order -/

/-- R9: `byte(v, i)`, bits `[8i+7:8i]`. -/
def byteOf (v : Word) (i : Nat) : Byte := v.extractLsb' (8 * i) 8

/-- R37: the eight bytes of a value, the one at the lowest address first. -/
def wordBytes (v : Word) : List Byte :=
  [byteOf v 0, byteOf v 1, byteOf v 2, byteOf v 3, byteOf v 4, byteOf v 5, byteOf v 6, byteOf v 7]

/-- R37, read back: the value whose byte at the lowest address comes first. -/
def littleEndian : List Byte → Nat
  | [] => 0
  | b :: bs => b.toNat + 256 * littleEndian bs

/-! ### Fields of the command word (R43) -/

/-- R43: OP, bits [7:0]. -/
def opField (word : Word) : Byte := word.extractLsb' 0 8

/-- R43: AMT, bits [15:8]. -/
def amtField (word : Word) : Byte := word.extractLsb' 8 8

/-- R43: RSV, bits [63:16]. -/
def rsvField (word : Word) : BitVec 48 := word.extractLsb' 16 48

/-! ### Decoding -/

/-- Why a word is no command (R46, R48), or a run of bytes no word (R49). Which reason is named first is the model's: log
entry 16. -/
inductive DecodeError where
  /-- R48: an opcode that is not in the opcode map. -/
  | reservedOpcode (op : Byte)
  /-- R48: a nonzero RSV field. -/
  | nonzeroReserved
  /-- R48: a nonzero AMT field with an opcode other than SHL. -/
  | nonzeroAmount
  /-- R49: every command is one 64-bit word; fewer than eight bytes are none. -/
  | truncated
  deriving DecidableEq, Repr

/-- R47: SHL's opcode, the one that takes AMT. -/
def opShl : Byte := 0x20#8

/-- R47: the opcodes of the opcode map. -/
def opcodes : List Byte :=
  [0x01#8, 0x02#8, 0x03#8, 0x04#8, 0x05#8, 0x06#8, 0x0F#8, 0x10#8, 0x11#8, 0x20#8,
   0x30#8, 0x31#8, 0x40#8, 0x41#8, 0x42#8, 0x50#8, 0x51#8, 0x52#8, 0x53#8, 0x54#8]

/-- R46: `Legal(word)`, its three conditions. -/
def legal (word : Word) : Bool :=
  opcodes.contains (opField word) && rsvField word == 0#48 && (amtField word == 0#8 || opField word == opShl)

/-- R45, R47: the command of an opcode; the amount (R44: zero-extended, not scaled) goes to SHL alone. -/
def instrOfOpcode (op amt : Byte) : Option Instr :=
  match op.toNat with
  | 0x01 => some .zero
  | 0x02 => some .copy
  | 0x03 => some .fromu32
  | 0x04 => some .fromi32
  | 0x05 => some .tou32
  | 0x06 => some .toi32
  | 0x0F => some .clrovf
  | 0x10 => some .cmp
  | 0x11 => some .scmp
  | 0x20 => some (.shl amt.toNat)
  | 0x30 => some .add
  | 0x31 => some .sub
  | 0x40 => some .mul
  | 0x41 => some .div
  | 0x42 => some .divmod
  | 0x50 => some .neg
  | 0x51 => some .sadd
  | 0x52 => some .ssub
  | 0x53 => some .smul
  | 0x54 => some .sdiv
  | _ => none

/-- R45 to R48: the command a word encodes, or the reason it encodes none. -/
def decode (word : Word) : Except DecodeError Instr :=
  match instrOfOpcode (opField word) (amtField word) with
  | none => .error (.reservedOpcode (opField word))
  | some i =>
    if rsvField word ≠ 0#48 then .error .nonzeroReserved
    else if amtField word ≠ 0#8 ∧ opField word ≠ opShl then .error .nonzeroAmount
    else .ok i

/-- R37, R43, R49: the command at the head of a run of bytes, and the bytes after it. -/
def decodeBytes : List Byte → Except DecodeError (Instr × List Byte)
  | b0 :: b1 :: b2 :: b3 :: b4 :: b5 :: b6 :: b7 :: rest =>
    match decode (BitVec.ofNat 64 (littleEndian [b0, b1, b2, b3, b4, b5, b6, b7])) with
    | .ok i => .ok (i, rest)
    | .error e => .error e
  | _ => .error .truncated

/-! ### Encoding -/

/-- R47: a command's opcode. -/
def Instr.opcode : Instr → Byte
  | .zero => 0x01#8
  | .copy => 0x02#8
  | .fromu32 => 0x03#8
  | .fromi32 => 0x04#8
  | .tou32 => 0x05#8
  | .toi32 => 0x06#8
  | .clrovf => 0x0F#8
  | .cmp => 0x10#8
  | .scmp => 0x11#8
  | .shl _ => opShl
  | .add => 0x30#8
  | .sub => 0x31#8
  | .mul => 0x40#8
  | .div => 0x41#8
  | .divmod => 0x42#8
  | .neg => 0x50#8
  | .sadd => 0x51#8
  | .ssub => 0x52#8
  | .smul => 0x53#8
  | .sdiv => 0x54#8

/-- R43, R44: a command's AMT field; 0 for every command but SHL. -/
def Instr.amt : Instr → Byte
  | .shl amount => BitVec.ofNat 8 amount
  | .zero | .copy | .fromu32 | .fromi32 | .tou32 | .toi32 | .clrovf | .cmp | .scmp | .add | .sub | .mul | .div
  | .divmod | .neg | .sadd | .ssub | .smul | .sdiv => 0#8

/-- R43: the command word, `RSV = 0`, then AMT, then OP. -/
def encode (i : Instr) : Word := 0#48 ++ (i.amt ++ i.opcode)

/-! ### The host's reading of a table row -/

/-- The command the decoder reads from the word whose low `nbits` bits are those of `w`, laid out in the block's byte
order (R37); every higher bit is 0. -/
def decodeTableWord (nbits w : Nat) : Option Instr :=
  match decodeBytes (wordBytes (BitVec.ofNat 64 (w % 2 ^ nbits))) with
  | .ok (i, _) => some i
  | .error _ => none

end Sys2Proof
end

