-- ==== Sys2Proof/Machine/State.lean ====
section
/-! DEFINITION. The state of the block (spec/10_state.md R16 to R32), the host accesses that wait at its port
(spec/20_memory.md R33), the replies it has given, and the state after reset (R32, R97). -/

namespace Sys2Proof.Machine

/-- R16 to R20: the data registers. -/
inductive DataReg where
  /-- R16: A, the document's `dest`. -/
  | a
  /-- R17: B, the document's `src`. -/
  | b
  /-- R18: R, the document's `rem`. -/
  | r
  /-- R19: W, the 32-bit conversion register. -/
  | w
  deriving DecidableEq, Repr

/-- R24: the error codes. Code 11 is reserved and never produced (93 U6), so it has no name here. Log entry 12. -/
inductive ErrCode where
  /-- 00: the command completed. -/
  | none
  /-- 01: DIV, DIVMOD or SDIV found B = ZERO. -/
  | divZero
  /-- 10: the command word encodes no command. -/
  | illegal
  deriving DecidableEq, Repr

/-- R25: the comparator's three results. Code 10 is reserved and never produced (93 U7), so it has no name here. Log
entry 12. -/
inductive CmpResult where
  /-- 00: the operands are equal. -/
  | equal
  /-- 01: the left operand, A, is greater. -/
  | greater
  /-- 11: the left operand, A, is less. -/
  | less
  deriving DecidableEq, Repr

/-- R31: which data registers something has written since reset. The block computes nothing from it; it is what R31 and
R85 call "written", and Safety.lean's `checkedStep` reads it. Log entry 14, DEDUCED. -/
structure Written where
  a : Bool
  b : Bool
  r : Bool
  w : Bool
  deriving DecidableEq, Repr

/-- What a host access does: `MemRead` or `MemWrite` of R13. -/
inductive AccessKind where
  | read
  | write (data : Word)
  deriving DecidableEq, Repr

/-- One host access as the port receives it. Log entry 10, DEDUCED. -/
structure Access where
  /-- Which host agent made it (R42). The block treats all alike. Log entry 8. -/
  host : Nat
  /-- Its first byte, counted from BIGNUM_BASE (R35); an access may begin before the window and run into it. -/
  offset : Int
  /-- Its width in bytes. -/
  bytes : Nat
  kind : AccessKind
  deriving DecidableEq, Repr

/-- What reaches the block from outside: a host access, or reset (R97). Log entry 3, DESIGN CHOICE. -/
inductive PortEvent where
  | access (a : Access)
  | reset
  deriving DecidableEq, Repr

/-- How an admitted access completes: with the data read, or, for a write, by its completion alone (R33, R90). -/
inductive ReplyKind where
  | data (v : Word)
  | done
  deriving DecidableEq, Repr

/-- The reply to one access, and the host agent it goes to. -/
structure Reply where
  host : Nat
  kind : ReplyKind
  deriving DecidableEq, Repr

/-- The block's state (R16 to R26), with the port's queue and replies. R27 to R29: there is no other register, no
program counter and no other register file. -/
@[ext]
structure State where
  /-- R16. -/
  a : Word
  /-- R17. -/
  b : Word
  /-- R18. -/
  r : Word
  /-- R19: W[31:0]. W[63:32] reads as 0 and holds nothing. -/
  w : Word32
  /-- R26: the last word written to CMD. -/
  cmd : Word
  /-- R22: STATUS.OVF, the sticky overflow indicator. -/
  ovf : Bool
  /-- R23: STATUS.LOVF, the overflow result of the most recent command. -/
  lovf : Bool
  /-- R24: STATUS.ERR. -/
  err : ErrCode
  /-- R25: STATUS.CMP. EQ, GT, LT, GE and LE are computed from it and are no state. -/
  cmp : CmpResult
  /-- R31. -/
  written : Written
  /-- R33: the accesses the port holds, in the order it received them, the next one first. Log entry 9, DESIGN CHOICE:
  the model's own. -/
  port : List PortEvent
  /-- The replies given so far, the oldest first. Log entry 9, DESIGN CHOICE: the model's own. -/
  replies : List Reply
  deriving DecidableEq, Repr

/-- Why a step stops. -/
inductive Fault where
  /-- R38, R84: a host access to the window that the block does not admit; `offset` from BIGNUM_BASE, `width` in bits.
  Raised by servicing an access, never by a command. Safe: the hardware answers with a bus error and goes on unchanged. Log
  entry 7. -/
  | busError (offset : Int) (width : Nat)
  /-- R34, R36: an access no byte of which lies in the window; it is the platform's, not the block's, and the spec gives
  it no effect. Raised by servicing an access, never by a command. Safe: the model stops. Log entry 4. -/
  | outsideWindow (offset : Int) (width : Nat)
  deriving DecidableEq, Repr

/-- Why a command has no meaning. -/
inductive Refusal where
  /-- Raised by an arm of `exec` whose instruction has no meaning yet. No arm does. Safe. -/
  | notModelled (mnemonic : String)
  deriving DecidableEq, Repr

/-- R31, R32: nothing has been written since reset. -/
def Written.none : Written := { a := false, b := false, r := false, w := false }

/-- R32, R97: the state after reset. The spec leaves A, B, R and W[31:0] UNSPECIFIED; the model names 0 for each (DESIGN
CHOICE, unsafe: log entry 1) and `written` records that nothing wrote them. -/
def State.reset : State where
  a := Word.ZERO
  b := Word.ZERO
  r := Word.ZERO
  w := 0#32
  cmd := Word.ZERO
  ovf := false
  lovf := false
  err := .none
  cmp := .equal
  written := Written.none
  port := []
  replies := []

end Sys2Proof.Machine
end

