-- ==== Sys2Proof/Machine/Operands.lean ====
section
/-! DEFINITION. The values of operands (spec/00_scope.md R9 to R12) and which registers each command reads and writes
(spec/10_state.md R20). -/

namespace Sys2Proof.Machine

/-! ### Interpretations (R10) -/

/-- R10: `u(v)`, the unsigned value. -/
def u (v : Word) : Int := (v.toNat : Int)

/-- R10: `s(v) = u(v) - 2^64 * v[63]`, the two's-complement value. -/
def sv (v : Word) : Int := if v.msb then u v - 2 ^ 64 else u v

/-- R10: `bits64(n)`, the value whose unsigned value is `n mod 2^64`. -/
def bits64 (n : Int) : Word := BitVec.ofInt 64 n

/-- R10: `zext_64(w)`. -/
def zext64 (w : Word32) : Word := w.setWidth 64

/-- R10: `sext_64(w)`. -/
def sext64 (w : Word32) : Word := w.signExtend 64

/-- R9: `v[31:0]`. -/
def low32 (v : Word) : Word32 := v.extractLsb' 0 32

/-- R12: `in_s64(n)`. -/
def inS64 (n : Int) : Bool := decide (-2 ^ 63 ≤ n ∧ n ≤ 2 ^ 63 - 1)

/-- R64, R68: the overflow condition `n > 2^64 - 1` of a result that is never negative. -/
def aboveU64 (n : Int) : Bool := decide (n > 2 ^ 64 - 1)

/-- R65: the overflow condition `u(v) > u(w)`. -/
def aboveU (v w : Word) : Bool := decide (u v > u w)

/-- R12: `trunc(n / d)`, rounded toward zero. -/
def truncDiv (n d : Int) : Int := n.tdiv d

/-! ### Registers of each command (R20) -/

/-- R20, the "reads" column. -/
def readSet : Instr → List DataReg
  | .zero => []
  | .copy => [.b]
  | .fromu32 => [.w]
  | .fromi32 => [.w]
  | .tou32 => [.a]
  | .toi32 => [.a]
  | .clrovf => []
  | .cmp => [.a, .b]
  | .scmp => [.a, .b]
  | .shl _ => [.a]
  | .add => [.a, .b]
  | .sub => [.a, .b]
  | .mul => [.a, .b]
  | .div => [.a, .b]
  | .divmod => [.a, .b]
  | .neg => [.a]
  | .sadd => [.a, .b]
  | .ssub => [.a, .b]
  | .smul => [.a, .b]
  | .sdiv => [.a, .b]

/-- R20, the data registers of the "writes" column. -/
def writeSet : Instr → List DataReg
  | .zero => [.a]
  | .copy => [.a]
  | .fromu32 => [.a]
  | .fromi32 => [.a]
  | .tou32 => [.w]
  | .toi32 => [.w]
  | .clrovf => []
  | .cmp => []
  | .scmp => []
  | .shl _ => [.a]
  | .add => [.a]
  | .sub => [.a]
  | .mul => [.a]
  | .div => [.a]
  | .divmod => [.a, .r]
  | .neg => [.a]
  | .sadd => [.a]
  | .ssub => [.a]
  | .smul => [.a]
  | .sdiv => [.a]

end Sys2Proof.Machine
end

