-- ==== Sys2Proof/Machine/Ops.lean ====
section
/-! DEFINITION. The named operations over the registers (spec/00_scope.md R13), the start of every command
(spec/30_encoding.md R45), and raising an error (spec/60_exceptions.md R81). -/

namespace Sys2Proof.Machine

/-! ### Data registers -/

/-- R31: has `reg` been written since reset? -/
def Written.has (m : Written) : DataReg → Bool
  | .a => m.a
  | .b => m.b
  | .r => m.r
  | .w => m.w

/-- R31: `reg` counts as written from now on. -/
def Written.mark (m : Written) : DataReg → Written
  | .a => { m with a := true }
  | .b => { m with b := true }
  | .r => { m with r := true }
  | .w => { m with w := true }

/-- R13: `x[reg]`. R19: W's upper half reads as 0. -/
def State.x (s : State) : DataReg → Word
  | .a => s.a
  | .b => s.b
  | .r => s.r
  | .w => zext64 s.w

/-- R13: `x[reg] <- v`, by a command or by the host; either counts as a write (R31). R19: W keeps bits [31:0] alone. -/
def State.setX (s : State) (reg : DataReg) (v : Word) : State :=
  match reg with
  | .a => { s with a := v, written := s.written.mark .a }
  | .b => { s with b := v, written := s.written.mark .b }
  | .r => { s with r := v, written := s.written.mark .r }
  | .w => { s with w := low32 v, written := s.written.mark .w }

/-! ### Commands -/

/-- R45: what `Execute(word)` writes before it decodes: CMD, ERR = NONE and LOVF = 0. -/
def State.beginCommand (s : State) (word : Word) : State :=
  { s with cmd := word, err := .none, lovf := false }

/-- R13, R81: `raise E`. The command ends with its error code in STATUS.ERR and no other write. R88, R89: nothing is
saved, no mode changes and control goes nowhere, so there is no return from an error either. -/
def State.raise (s : State) (e : ErrCode) : State := { s with err := e }

/-- R70: the zero-divisor check, before any other write of DIV, DIVMOD and SDIV; `go` is the rest of the command. -/
def State.unlessDivisorZero (s : State) (go : State) : State :=
  if u (s.x .b) = 0 then s.raise .divZero else go

/-- The reply to an access, after those given before it. -/
def State.reply (s : State) (host : Nat) (k : ReplyKind) : State :=
  { s with replies := s.replies ++ [{ host := host, kind := k }] }

end Sys2Proof.Machine
end

