-- ==== Sys2Proof/Machine/Flags.lean ====
section
/-! DEFINITION. The status register: overflow events (spec/00_scope.md R13, spec/10_state.md R22, R23), the
comparator's result and its predicates (R25, spec/41_compare.md R59, R60), and the word the host reads (R21). -/

namespace Sys2Proof.Machine

/-- R13: `ovf_event(e)`: LOVF <- e, and OVF <- 1 if e. Nothing here clears OVF (R22). -/
def State.ovfEvent (s : State) (e : Bool) : State := { s with lovf := e, ovf := s.ovf || e }

/-- R22, R58: the caller's reset of the sticky indicator. -/
def State.clearOvf (s : State) : State := { s with ovf := false }

/-- R25: STATUS.CMP <- c. -/
def State.setCmp (s : State) (c : CmpResult) : State := { s with cmp := c }

/-! ### The comparator -/

/-- R12, R25: the result that stands for `sign(n)`. -/
def CmpResult.ofSign (n : Int) : CmpResult :=
  if n = 0 then .equal else if 0 < n then .greater else .less

/-- R25: swapping the operands negates the result. -/
def CmpResult.negate : CmpResult → CmpResult
  | .equal => .equal
  | .greater => .less
  | .less => .greater

/-- R59: the scan of the lowest `n` bytes, from byte `n - 1` down; the first bytes that differ decide. -/
def scanBytes (a b : Word) : Nat → CmpResult
  | 0 => .equal
  | i + 1 =>
    if byteOf a i ≠ byteOf b i then
      (if (byteOf a i).toNat > (byteOf b i).toNat then .greater else .less)
    else scanBytes a b i

/-- R59: the unsigned comparison, all eight bytes. -/
def compareUnsigned (a b : Word) : CmpResult := scanBytes a b 8

/-- R60: the signed comparison. Of two operands with one sign, the unsigned order decides (90 C6). -/
def compareSigned (a b : Word) : CmpResult :=
  match compareUnsigned a b with
  | .equal => .equal
  | c =>
    if a.msb = false ∧ b.msb = true then .greater
    else if a.msb = true ∧ b.msb = false then .less
    else c

/-! ### STATUS -/

/-- R24. -/
def ErrCode.code : ErrCode → BitVec 2
  | .none => 0b00#2
  | .divZero => 0b01#2
  | .illegal => 0b10#2

/-- R25. -/
def CmpResult.code : CmpResult → BitVec 2
  | .equal => 0b00#2
  | .greater => 0b01#2
  | .less => 0b11#2

/-- R21: EQ, GT, LT, GE and LE, as functions of STATUS.CMP. -/
def CmpResult.eq (c : CmpResult) : Bool := c.code == 0b00#2
@[inherit_doc CmpResult.eq] def CmpResult.gt (c : CmpResult) : Bool := c.code == 0b01#2
@[inherit_doc CmpResult.eq] def CmpResult.lt (c : CmpResult) : Bool := c.code == 0b11#2
@[inherit_doc CmpResult.eq] def CmpResult.ge (c : CmpResult) : Bool := c.code == 0b00#2 || c.code == 0b01#2
@[inherit_doc CmpResult.eq] def CmpResult.le (c : CmpResult) : Bool := c.code == 0b00#2 || c.code == 0b11#2

/-- R21: the layout of STATUS, from its reserved bits [63:11] down to OVF in bit 0. -/
def statusWord (ovf lovf : Bool) (err : ErrCode) (cmp : CmpResult) : Word :=
  0#53 ++ (BitVec.ofBool cmp.le ++ (BitVec.ofBool cmp.ge ++ (BitVec.ofBool cmp.lt ++ (BitVec.ofBool cmp.gt ++
    (BitVec.ofBool cmp.eq ++ (cmp.code ++ (err.code ++ (BitVec.ofBool lovf ++ BitVec.ofBool ovf))))))))

/-- R21: the 64-bit value of STATUS, computed whenever it is read (R25). -/
def State.status (s : State) : Word := statusWord s.ovf s.lovf s.err s.cmp

end Sys2Proof.Machine
end

