-- ==== Sys2Proof/Machine/AddSub.lean ====
section
/-! DEFINITION. The adder and subtractor, modulo 2^64 (spec/43_addsub.md R64, R65). -/

namespace Sys2Proof.Machine

/-- R64: the sum of A and B, with an overflow event when it exceeds 2^64 - 1. -/
def execAdd (s : State) : Host.Outcome State Fault Refusal :=
  let sum := u (s.x .a) + u (s.x .b)
  .next ((s.setX .a (bits64 sum)).ovfEvent (aboveU64 sum))

/-- R65: the difference of A and B, with an overflow event when B is above A. -/
def execSub (s : State) : Host.Outcome State Fault Refusal :=
  let diff := u (s.x .a) - u (s.x .b)
  .next ((s.setX .a (bits64 diff)).ovfEvent (aboveU (s.x .b) (s.x .a)))

end Sys2Proof.Machine
end

