-- ==== Sys2Proof/Machine/Compare.lean ====
section
/-! DEFINITION. The comparator (spec/41_compare.md R59, R60). -/

namespace Sys2Proof.Machine

/-- R59: the unsigned comparison of A with B, to STATUS.CMP. -/
def execCmp (s : State) : Host.Outcome State Fault Refusal := .next (s.setCmp (compareUnsigned (s.x .a) (s.x .b)))

/-- R60: the signed comparison of A with B, to STATUS.CMP. -/
def execScmp (s : State) : Host.Outcome State Fault Refusal := .next (s.setCmp (compareSigned (s.x .a) (s.x .b)))

end Sys2Proof.Machine
end

