-- ==== Sys2Proof/Machine/MulDiv.lean ====
section
/-! DEFINITION. The multiplier and divider, unsigned (spec/44_muldiv.md R68 to R72). -/

namespace Sys2Proof.Machine

/-- R68: the low 64 bits of the product of A and B, with an overflow event when the product exceeds 2^64 - 1. -/
def execMul (s : State) : Host.Outcome State Fault Refusal :=
  let p := u (s.x .a) * u (s.x .b)
  .next ((s.setX .a (bits64 p)).ovfEvent (aboveU64 p))

/-- R71: the quotient of A by B. R is not written. -/
def execDiv (s : State) : Host.Outcome State Fault Refusal :=
  .next (s.unlessDivisorZero (s.setX .a (bits64 (u (s.x .a) / u (s.x .b)))))

/-- R72: the quotient of A by B to A and the remainder to R, both from the original A. -/
def execDivmod (s : State) : Host.Outcome State Fault Refusal :=
  .next (s.unlessDivisorZero
    ((s.setX .a (bits64 (u (s.x .a) / u (s.x .b)))).setX .r (bits64 (u (s.x .a) % u (s.x .b)))))

end Sys2Proof.Machine
end

