-- ==== Sys2Proof/Machine/Representation.lean ====
section
/-! DEFINITION. Representation, conversion and indicator control (spec/40_representation.md R52 to R58). Each meaning
starts from the state `State.beginCommand` leaves, as every command rule does. -/

namespace Sys2Proof.Machine

/-- R52: `x[A] <- ZERO`. -/
def execZero (s : State) : Host.Outcome State Fault Refusal := .next (s.setX .a Word.ZERO)

/-- R53: `x[A] <- x[B]`. -/
def execCopy (s : State) : Host.Outcome State Fault Refusal := .next (s.setX .a (s.x .b))

/-- R54: `x[A] <- zext_64(x[W][31:0])`. -/
def execFromu32 (s : State) : Host.Outcome State Fault Refusal := .next (s.setX .a (zext64 (low32 (s.x .w))))

/-- R55: `x[A] <- sext_64(x[W][31:0])` (90 C8: a true sign extension). -/
def execFromi32 (s : State) : Host.Outcome State Fault Refusal := .next (s.setX .a (sext64 (low32 (s.x .w))))

/-- R56: `x[W] <- zext_64(x[A][31:0])`; a wider value is truncated, with no flag. -/
def execTou32 (s : State) : Host.Outcome State Fault Refusal := .next (s.setX .w (zext64 (low32 (s.x .a))))

/-- R57: `x[W] <- zext_64(x[A][31:0])`, all four bytes (90 C8); a wider value is truncated, with no flag. -/
def execToi32 (s : State) : Host.Outcome State Fault Refusal := .next (s.setX .w (zext64 (low32 (s.x .a))))

/-- R58: `STATUS.OVF <- 0`. -/
def execClrovf (s : State) : Host.Outcome State Fault Refusal := .next s.clearOvf

end Sys2Proof.Machine
end

