-- ==== Sys2Proof/Machine/Shift.lean ====
section
/-! DEFINITION. The shifter (spec/42_shift.md R62). -/

namespace Sys2Proof.Machine

/-- R62: `a` shifted left by `n` bits; 64 bits or more give ZERO. -/
def shiftLeft (a : Word) (n : Nat) : Word := if 64 ≤ n then Word.ZERO else bits64 (u a * 2 ^ n)

/-- R62: the shift of A, with no overflow event whatever is shifted out. -/
def execShl (amount : Nat) (s : State) : Host.Outcome State Fault Refusal :=
  .next (s.setX .a (shiftLeft (s.x .a) amount))

end Sys2Proof.Machine
end

