-- ==== Sys2Proof/Machine/Signed.lean ====
section
/-! DEFINITION. Negation and the signed commands (spec/45_signed.md R74 to R79). -/

namespace Sys2Proof.Machine

/-- R75: what every signed command does with its true result `t`: write `bits64(t)` to A, and an overflow event
exactly when `t` is no 64-bit signed value. -/
def State.signedResult (s : State) (t : Int) : State := (s.setX .a (bits64 t)).ovfEvent (!inS64 t)

/-- R74: the negation of A; an overflow event exactly when A is MIN. -/
def execNeg (s : State) : Host.Outcome State Fault Refusal :=
  .next ((s.setX .a (bits64 (-sv (s.x .a)))).ovfEvent (s.x .a == Word.MIN))

/-- R76: the signed sum of A and B. -/
def execSadd (s : State) : Host.Outcome State Fault Refusal := .next (s.signedResult (sv (s.x .a) + sv (s.x .b)))

/-- R77: the signed difference of A and B. -/
def execSsub (s : State) : Host.Outcome State Fault Refusal := .next (s.signedResult (sv (s.x .a) - sv (s.x .b)))

/-- R78: the signed product of A and B. -/
def execSmul (s : State) : Host.Outcome State Fault Refusal := .next (s.signedResult (sv (s.x .a) * sv (s.x .b)))

/-- R79: the signed quotient of A by B, rounded toward zero. There is no remainder. -/
def execSdiv (s : State) : Host.Outcome State Fault Refusal :=
  .next (s.unlessDivisorZero (s.signedResult (truncDiv (sv (s.x .a)) (sv (s.x .b)))))

end Sys2Proof.Machine
end

