-- ==== Sys2Proof/Machine/Dispatch.lean ====
section
/-! DEFINITION. The dispatch of R45 (spec/30_encoding.md): one meaning for each command. -/

namespace Sys2Proof.Machine

def exec (i : Instr) (s : State) : Host.Outcome State Fault Refusal :=
  match i with
  | .zero => Sys2Proof.Machine.execZero s
  | .copy => Sys2Proof.Machine.execCopy s
  | .fromu32 => Sys2Proof.Machine.execFromu32 s
  | .fromi32 => Sys2Proof.Machine.execFromi32 s
  | .tou32 => Sys2Proof.Machine.execTou32 s
  | .toi32 => Sys2Proof.Machine.execToi32 s
  | .clrovf => Sys2Proof.Machine.execClrovf s
  | .cmp => Sys2Proof.Machine.execCmp s
  | .scmp => Sys2Proof.Machine.execScmp s
  | .shl amount => Sys2Proof.Machine.execShl amount s
  | .add => Sys2Proof.Machine.execAdd s
  | .sub => Sys2Proof.Machine.execSub s
  | .mul => Sys2Proof.Machine.execMul s
  | .div => Sys2Proof.Machine.execDiv s
  | .divmod => Sys2Proof.Machine.execDivmod s
  | .neg => Sys2Proof.Machine.execNeg s
  | .sadd => Sys2Proof.Machine.execSadd s
  | .ssub => Sys2Proof.Machine.execSsub s
  | .smul => Sys2Proof.Machine.execSmul s
  | .sdiv => Sys2Proof.Machine.execSdiv s

end Sys2Proof.Machine
end

