-- ==== Sys2Proof/Machine/Port.lean ====
section
/-! DEFINITION. Executing a command word (spec/30_encoding.md R45), the register window (spec/20_memory.md R34, R35,
R38, R39), and how a host access comes to the port (R13, R33). -/

namespace Sys2Proof.Machine

/-! ### Execute (R45) -/

/-- R45: `Execute(word)`. R83: a word that encodes no command raises IllegalCommand. -/
def execute (word : Word) (s : State) : Host.Outcome State Fault Refusal :=
  match decode word with
  | .error _ => .next ((s.beginCommand word).raise .illegal)
  | .ok i => exec i (s.beginCommand word)

/-! ### The register window -/

/-- R35: the window's eight slots of 64 bits. -/
inductive Slot where
  /-- 0x00, 0x08, 0x10, 0x18: the data registers. -/
  | data (reg : DataReg)
  /-- 0x20. -/
  | cmd
  /-- 0x28. -/
  | status
  /-- 0x30 and 0x38. -/
  | reserved
  deriving DecidableEq, Repr

/-- R35: the slots, in the order of their offsets. -/
def slots : List Slot :=
  [.data .a, .data .b, .data .r, .data .w, .cmd, .status, .reserved, .reserved]

/-- R35: the slot at an offset; none where no slot begins. -/
def slotAt (offset : Int) : Option Slot :=
  if 0 ≤ offset ∧ offset % 8 = 0 then slots[(offset / 8).toNat]? else none

/-- R35: the offset of CMD. -/
def cmdOffset : Int := 0x20

/-- R34: does some byte of the access lie in the window? -/
def Access.touchesWindow (acc : Access) : Bool :=
  decide (0 < acc.bytes ∧ acc.offset < (Config.windowBytes : Int) ∧ 0 < acc.offset + (acc.bytes : Int))

/-- R38: the slot an access is admitted to: a 64-bit access at a multiple of 8 in the window. -/
def Access.slot (acc : Access) : Option Slot :=
  if acc.bytes = Config.accessBytes then slotAt acc.offset else none

/-- R35, the "host read" column. Reads have no side effect (R39). -/
def State.readSlot (s : State) : Slot → Word
  | .data reg => s.x reg
  | .cmd => s.cmd
  | .status => s.status
  | .reserved => 0#64

/-- R35, the "host write" column. -/
def State.writeSlot (s : State) (slot : Slot) (v : Word) : Host.Outcome State Fault Refusal :=
  match slot with
  | .data reg => .next (s.setX reg v)
  | .cmd => execute v s
  | .status => .next s
  | .reserved => .next s

/-! ### Servicing an access -/

/-- Give the reply of an access once all it does is done (R33). -/
def replyAfter (host : Nat) (k : ReplyKind) :
    Host.Outcome State Fault Refusal → Host.Outcome State Fault Refusal
  | .next s => .next (s.reply host k)
  | .fault f => .fault f
  | .refused r => .refused r

/-- R33, R38, R39: service one access to completion. -/
def service (acc : Access) (s : State) : Host.Outcome State Fault Refusal :=
  match acc.slot with
  | some slot =>
    match acc.kind with
    | .read => .next (s.reply acc.host (.data (s.readSlot slot)))
    | .write v => replyAfter acc.host .done (s.writeSlot slot v)
  | none =>
    if acc.touchesWindow then .fault (.busError acc.offset (8 * acc.bytes))
    else .fault (.outsideWindow acc.offset (8 * acc.bytes))

/-- R97: reset; the accesses the port has not serviced and the replies given are the host's, and stay. Log entry 3. -/
def State.resetBlock (s : State) : State :=
  { State.reset with port := s.port, replies := s.replies }

/-- R33: service what the port received first, then go on with the rest. With nothing received the block does nothing
(R28). -/
def servicePort (s : State) : Host.Outcome State Fault Refusal :=
  match s.port with
  | [] => .next s
  | .reset :: rest => .next ({ s with port := rest }.resetBlock)
  | .access acc :: rest => service acc { s with port := rest }

/-! ### The host's side -/

/-- An access that writes `word` to CMD. -/
def commandAccess (host : Nat) (word : Word) : Access :=
  { host := host, offset := cmdOffset, bytes := Config.accessBytes, kind := .write word }

/-- The access a host makes at an address of its own address space, seen from BIGNUM_BASE (R35). -/
def accessAt (host addr bytes : Nat) (kind : AccessKind) : Access :=
  { host := host, offset := (addr : Int) - (Config.bignumBase : Int), bytes := bytes, kind := kind }

/-- R33: the port receives an access, after those it holds. R36: an access that does not touch the window is the
platform's, and does not reach the block. -/
def State.receive (s : State) (acc : Access) : State :=
  if acc.touchesWindow then { s with port := s.port ++ [.access acc] } else s

/-- R13: `MemRead(addr, n)`. -/
def State.memRead (s : State) (host addr n : Nat) : State := s.receive (accessAt host addr n .read)

/-- R13: `MemWrite(addr, n, v)`. -/
def State.memWrite (s : State) (host addr n : Nat) (v : Word) : State := s.receive (accessAt host addr n (.write v))

end Sys2Proof.Machine
end

