-- ==== Sys2Proof/Machine/Step.lean ====
section
/-! DEFINITION. One step of the block (spec/20_memory.md R33): one host access, with the whole of the command that a
write to CMD executes. -/

namespace Sys2Proof.Machine

/-- R33: the block services the next event at its port. One step is one event, and there is no time (R104): log entry
11. -/
def step (s : State) : Host.Outcome State Fault Refusal := servicePort s

/-- The state in which the next step executes the command whose bits are the low `nbits` bits of `w`: a 64-bit write of
that word to CMD comes first at the port. R28: this is how a command reaches the block. Log entry 2. -/
def State.withFetchWord (s : State) (nbits w : Nat) : State :=
  { s with port := .access (commandAccess 0 (BitVec.ofNat 64 (w % 2 ^ nbits))) :: s.port }

end Sys2Proof.Machine
end

