-- ==== Sys2Proof/Machine/Asm.lean ====
section
/-! DEFINITION. The spec's assembly notation (spec/30_encoding.md R50) and its pseudo-instructions (R51): lines that
stand for host accesses. Labels, host variables and host control flow are the host's and no part of the block (R50). -/

namespace Sys2Proof.Machine

/-- R50: the registers that a line can name. -/
inductive AsmReg where
  | a
  | b
  | r
  | w
  | cmd
  | status
  deriving DecidableEq, Repr

/-- R50: a line that makes an access. -/
inductive AsmLine where
  /-- `wr X, v`; a negative literal `-n` stands for `bits64(-n)`. -/
  | wr (reg : AsmReg) (v : Int)
  /-- `rd X -> $h`. -/
  | rd (reg : AsmReg)
  /-- A command's mnemonic: `wr CMD, w` with `w` its legal word. -/
  | command (i : Instr)
  deriving DecidableEq, Repr

/-- R51: the pseudo-instructions. -/
inductive AsmPseudo where
  | liU32 (v : Int)
  | liI32 (v : Int)
  | li (v : Int)
  | mov
  | inc
  | dec
  deriving DecidableEq, Repr

/-- R50: `off(X)`, the offset of X in the window (R35). -/
def AsmReg.offset : AsmReg → Int
  | .a => 0x00
  | .b => 0x08
  | .r => 0x10
  | .w => 0x18
  | .cmd => 0x20
  | .status => 0x28

/-- R50: the lines the notation has: `wr` names A, B, R, W or CMD and its literal is a 64-bit value, signed or unsigned;
a command is one that has a word. The literal's range is the model's: log entry 15, DESIGN CHOICE. -/
def AsmLine.wf : AsmLine → Bool
  | .wr reg v => decide (reg ≠ .status) && decide (-2 ^ 63 ≤ v ∧ v ≤ 2 ^ 64 - 1)
  | .rd _ => true
  | .command i => i.wf

/-- R50: the access a line makes. -/
def AsmLine.access (host : Nat) : AsmLine → Access
  | .wr reg v => { host := host, offset := reg.offset, bytes := Config.accessBytes, kind := .write (bits64 v) }
  | .rd reg => { host := host, offset := reg.offset, bytes := Config.accessBytes, kind := .read }
  | .command i => commandAccess host (encode i)

/-- R51, the "condition" column. -/
def AsmPseudo.wf : AsmPseudo → Bool
  | .liU32 v => decide (0 ≤ v ∧ v ≤ 2 ^ 32 - 1)
  | .liI32 v => decide (-2 ^ 31 ≤ v ∧ v ≤ 2 ^ 31 - 1)
  | .li v => decide (-2 ^ 63 ≤ v ∧ v ≤ 2 ^ 64 - 1)
  | .mov | .inc | .dec => true

/-- R51, the "expansion" column. -/
def AsmPseudo.expand : AsmPseudo → List AsmLine
  | .liU32 v => [.wr .w v, .command .fromu32]
  | .liI32 v => [.wr .w (v % 2 ^ 32), .command .fromi32]
  | .li v => [.wr .a v]
  | .mov => [.command .copy]
  | .inc => [.wr .b 1, .command .add]
  | .dec => [.wr .b 1, .command .sub]

/-- R50: the encoding of a program, the words it writes to CMD, in order. -/
def encodeProgram (lines : List AsmLine) : List Word :=
  lines.filterMap fun line =>
    match line with
    | .wr .cmd v => some (bits64 v)
    | .command i => some (encode i)
    | _ => none

/-- The port receives the accesses of a straight-line program, in order. -/
def State.load (s : State) (host : Nat) (lines : List AsmLine) : State :=
  { s with port := s.port ++ lines.map fun line => .access (line.access host) }

end Sys2Proof.Machine
end

