-- ==== Sys2Proof/Machine/Reference.lean ====
section
/-! DEFINITION. The source's byte-level reference algorithms, as the spec corrects them: the shifter (spec/42_shift.md
R63), the adder and subtractor (spec/43_addsub.md R66, R67), the multiplier and divider (spec/44_muldiv.md R69, R73) and
the sign dispatch of the signed commands (spec/45_signed.md R78, R80). They are informative: no step uses them. They stand
here so that their agreement with the normative rules can be stated and proved. Bytes are numbers below 256, the byte
of the lowest index first. -/

namespace Sys2Proof.Machine

/-- The bytes of a value, as numbers. -/
def byteNats (v : Word) : List Nat := (wordBytes v).map BitVec.toNat

/-- The number that little-endian bytes hold. -/
def bytesValue : List Nat → Nat
  | [] => 0
  | d :: ds => d + 256 * bytesValue ds

/-- The value of eight bytes. -/
def ofByteNats (ds : List Nat) : Word := BitVec.ofNat 64 (bytesValue ds)

/-! ### Shifter (R63) -/

/-- R63 step 1: one move by a whole byte, a zero byte entering below and the top byte lost. -/
def shiftByteUp (ds : List Nat) : List Nat := (0 :: ds).take ds.length

/-- R63 step 2: the shift by `r` bits, with the carry between adjacent bytes; the carry out of the top is lost. -/
def shiftBits (r : Nat) : Nat → List Nat → List Nat
  | _, [] => []
  | carry, d :: ds =>
    let t := d * 2 ^ r + carry
    t % 256 :: shiftBits r (t / 256) ds

/-- R63: the whole bytes first, then the residual bits. -/
def refShiftLeft (a : Word) (n : Nat) : Word :=
  ofByteNats (shiftBits (n % 8) 0 (shiftByteUp^[n / 8] (byteNats a)))

/-! ### Adder (R66) -/

/-- R66 step 3: the byte loop, with the carry; the last carry is the "backstop" signal. -/
def addBytes : Nat → List Nat → List Nat → List Nat × Nat
  | carry, d :: ds, e :: es =>
    let t := d + e + carry
    let (rest, c) := addBytes (t / 256) ds es
    (t % 256 :: rest, c)
  | carry, _, _ => ([], carry)

/-- R66: the result and whether there was an overflow event. The wrap formula is the corrected `min - room - 1` (90 C1). -/
def refAdd (a b : Word) : Word × Bool :=
  let hi := max a.toNat b.toNat
  let lo := min a.toNat b.toNat
  let room := Word.MAX.toNat - hi
  if lo > room then (bits64 ((lo : Int) - room - 1), true)
  else
    let (ds, carry) := addBytes 0 (byteNats a) (byteNats b)
    (ofByteNats ds, decide (carry ≠ 0))

/-! ### Subtractor (R67) -/

/-- R67 step 2: borrow from the nearest nonzero byte of the minuend above; none when there is none (step 3). -/
def borrow : List Nat → Option (List Nat)
  | [] => none
  | 0 :: ds => (borrow ds).map (255 :: ·)
  | (d + 1) :: ds => some (d :: ds)

/-- R67 steps 2 and 3: the bytes of the difference, and whether a borrow came from beyond the top byte. The first
argument bounds the recursion by the number of bytes. -/
def subBytes : Nat → List Nat → List Nat → List Nat × Bool
  | n + 1, d :: ds, e :: es =>
    if d < e then
      match borrow ds with
      | some ds' =>
        let (rest, o) := subBytes n ds' es
        ((d + 256 - e) :: rest, o)
      | none => ([], true)
    else
      let (rest, o) := subBytes n ds es
      ((d - e) :: rest, o)
  | _, _, _ => ([], false)

/-- R67: the result and whether there was an overflow event. The rollover is the corrected `MAX - t + 1` (90 C2). -/
def refSub (a b : Word) : Word × Bool :=
  if b.toNat > a.toNat then
    let t := ofByteNats (subBytes 8 (byteNats b) (byteNats a)).1
    (ofByteNats (subBytes 8 (byteNats Word.MAX) (byteNats t)).1 + 1#64, true)
  else
    let (ds, o) := subBytes 8 (byteNats a) (byteNats b)
    (ofByteNats ds, o)

/-! ### Multiplier (R69) -/

/-- R69: the pairs of byte positions, i from B and j from A. -/
def bytePairs : List (Nat × Nat) := (List.range 8).flatMap fun i => (List.range 8).map fun j => (i, j)

/-- A byte at a position of a zeroed scratch value; nothing when the position is outside it. -/
def placeByte (d pos : Nat) : Nat := if pos < 8 then d * 256 ^ pos else 0

/-- R69 steps 1 to 3 for one pair: the total goes through the adder (R64's result and event), and a nonzero
contribution outside the eight bytes is dropped with an event (90 C4). -/
def mulStep (a b : Word) (acc : Word × Bool) (p : Nat × Nat) : Word × Bool :=
  let pp := (byteOf b p.1).toNat * (byteOf a p.2).toNat
  let pos := p.1 + p.2
  let scratch := placeByte (pp % 256) pos + placeByte (pp / 256) (pos + 1)
  let dropped := (decide (8 ≤ pos) && decide (pp ≠ 0)) || (decide (pos + 1 = 8) && decide (pp / 256 ≠ 0))
  let sum := acc.1.toNat + scratch
  (BitVec.ofNat 64 sum, acc.2 || decide (sum > 2 ^ 64 - 1) || dropped)

/-- R69: the total and whether there was an overflow event. -/
def refMul (a b : Word) : Word × Bool := bytePairs.foldl (mulStep a b) (Word.ZERO, false)

/-! ### Divider (R73) -/

/-- R73, the inner loop: subtract the divisor from the partial remainder while it fits, and count. The first argument
bounds the count; the spec's bound is 255. -/
def divDigit (b : Word) : Nat → Word → Nat → Word × Nat
  | 0, op, j => (op, j)
  | fuel + 1, op, j => if b.toNat ≤ op.toNat then divDigit b fuel (op - b) (j + 1) else (op, j)

/-- R73, one byte position: bring down byte `i` of the dividend and append the quotient digit. -/
def divStep (a b : Word) (i : Nat) (acc : Word × Word) : Word × Word :=
  let op := (acc.2 <<< 8) ||| (byteOf a i).setWidth 64
  let (op', j) := divDigit b 255 op 0
  ((acc.1 <<< 8) + BitVec.ofNat 64 j, op')

/-- R73, the loop from byte `n - 1` down to byte 0; the quotient and the partial remainder. -/
def divLoop (a b : Word) : Nat → Word × Word → Word × Word
  | 0, acc => acc
  | i + 1, acc => divLoop a b i (divStep a b i acc)

/-- R73: the quotient and the remainder, for a nonzero divisor. -/
def refDivmod (a b : Word) : Word × Word :=
  if a.toNat < b.toNat then (Word.ZERO, a)
  else if a.toNat = b.toNat then (1#64, Word.ZERO)
  else divLoop a b 8 (Word.ZERO, Word.ZERO)

/-! ### Sign dispatch (R76 to R80). Each gives its value alone: its inner flags do not count (90 C7). -/

/-- R80: a negative operand is flipped to its magnitude. -/
def magnitude (v : Word) : Word := if v.msb then -v else v

/-- R80: the result is flipped when the operands' signs differ. -/
def withSign (neg : Bool) (v : Word) : Word := if neg then -v else v

/-- R80: SADD by the operands' signs; a negative operand is flipped and the complementary operation is run. The source
has no case table (91 N25): DEDUCED, log entry 13. -/
def refSadd (a b : Word) : Word :=
  match a.msb, b.msb with
  | false, false => (refAdd a b).1
  | false, true => (refSub a (magnitude b)).1
  | true, false => (refSub b (magnitude a)).1
  | true, true => -(refAdd (magnitude a) (magnitude b)).1

/-- R80: SSUB by the operands' signs. DEDUCED, log entry 13. -/
def refSsub (a b : Word) : Word :=
  match a.msb, b.msb with
  | false, false => (refSub a b).1
  | false, true => (refAdd a (magnitude b)).1
  | true, false => -(refAdd (magnitude a) b).1
  | true, true => (refSub (magnitude b) (magnitude a)).1

/-- R80: SMUL by magnitudes. -/
def refSmul (a b : Word) : Word := withSign (a.msb != b.msb) (refMul (magnitude a) (magnitude b)).1

/-- R80: SDIV by magnitudes, for a nonzero divisor. -/
def refSdiv (a b : Word) : Word := withSign (a.msb != b.msb) (refDivmod (magnitude a) (magnitude b)).1

end Sys2Proof.Machine
end

