-- ==== Sys2Proof/Safety.lean ====
section
/-! DEFINITION. What counts as a safe run: no read of a data register that nothing has written since reset
(spec/10_state.md R31, spec/60_exceptions.md R85, R87), and what several hosts' accesses can become at the port
(spec/20_memory.md R42). Beside them, what statements about STATUS speak of: the true result of a command and what
STATUS says of the word in CMD. -/

namespace Sys2Proof.Machine

/-- Why a checked step stops: a fault of the step, or R85's model-only fault. -/
inductive CheckedFault where
  /-- The step itself faults. Safe. -/
  | machine (f : Fault)
  /-- R85: a host read, or a command, reads `reg`, which nothing has written since reset. Raised by `checkedStep` alone.
  Safe: the hardware goes on with an UNSPECIFIED value. -/
  | unwrittenRead (reg : DataReg)
  deriving DecidableEq, Repr

/-- R31: the first of some registers that nothing has written since reset. That the first is named is log entry 6,
DEDUCED. -/
def State.firstUnwritten (s : State) (regs : List DataReg) : Option DataReg :=
  regs.find? fun reg => !s.written.has reg

/-- R31, R87: the unwritten register that an access would read: a host read of it, or a command with it in its read
set. A word that encodes no command reads nothing, and a zero divisor makes no difference. -/
def State.unwrittenReadBy (s : State) (acc : Access) : Option DataReg :=
  match acc.slot, acc.kind with
  | some (.data reg), .read => s.firstUnwritten [reg]
  | some .cmd, .write word =>
    match decode word with
    | .ok i => s.firstUnwritten (readSet i)
    | .error _ => none
  | _, _ => none

/-- R31: the unwritten register the next step would read. -/
def State.unwrittenRead (s : State) : Option DataReg :=
  match s.port with
  | .access acc :: _ => s.unwrittenReadBy acc
  | _ => none

/-- R85: the step of the spec's model, which faults on a read of an unwritten register. -/
def checkedStep (s : State) : Host.Outcome State CheckedFault Refusal :=
  match s.unwrittenRead with
  | some reg => .fault (.unwrittenRead reg)
  | none =>
    match step s with
    | .next t => .next t
    | .fault f => .fault (.machine f)
    | .refused r => .refused r

/-- `k` checked steps. -/
def checkedRun : Nat → State → Host.Outcome State CheckedFault Refusal
  | 0, s => .next s
  | k + 1, s =>
    match checkedStep s with
    | .next t => checkedRun k t
    | .fault f => .fault f
    | .refused r => .refused r

/-- Two states that differ at most in what the registers hold that nothing has written since reset. -/
structure AgreeOnWritten (s t : State) : Prop where
  written : s.written = t.written
  regs : ∀ reg, s.written.has reg = true → s.x reg = t.x reg
  cmd : s.cmd = t.cmd
  ovf : s.ovf = t.ovf
  lovf : s.lovf = t.lovf
  err : s.err = t.err
  cmp : s.cmp = t.cmp
  port : s.port = t.port
  replies : s.replies = t.replies

/-- The port holds only accesses that reach the block (R34, R36). -/
def State.PortInWindow (s : State) : Prop :=
  ∀ acc, PortEvent.access acc ∈ s.port → acc.touchesWindow = true

/-- The true mathematical result of a command that can have an overflow event, and whether 64 signed bits (rather than
unsigned ones) must hold it (R64, R65, R68, R74 to R79). -/
def trueResult (i : Instr) (a b : Word) : Option (Bool × Int) :=
  match i with
  | .add => some (false, (a.toNat : Int) + (b.toNat : Int))
  | .sub => some (false, (a.toNat : Int) - (b.toNat : Int))
  | .mul => some (false, (a.toNat : Int) * (b.toNat : Int))
  | .neg => some (true, -a.toInt)
  | .sadd => some (true, a.toInt + b.toInt)
  | .ssub => some (true, a.toInt - b.toInt)
  | .smul => some (true, a.toInt * b.toInt)
  | .sdiv => if b = 0#64 then none else some (true, a.toInt.tdiv b.toInt)
  | .zero | .copy | .fromu32 | .fromi32 | .tou32 | .toi32 | .clrovf | .cmp | .scmp | .shl _ | .div | .divmod => none

/-- What STATUS says of the word in CMD: LOVF is 1 only with OVF, only with no error, and only after a command that can
have an overflow event; ERR is ILLEGAL only after a word that encodes no command, DIVZERO only after DIV, DIVMOD or SDIV,
and NONE only after a word that encodes a command, or with CMD = 0 (R22 to R24, R26, R81 to R83, R87). -/
structure StatusInv (s : State) : Prop where
  lovf_ovf : s.lovf = true → s.ovf = true
  lovf_err : s.lovf = true → s.err = .none
  lovf_cmd : s.lovf = true →
    s.cmd ∈ [0x30#64, 0x31#64, 0x40#64, 0x50#64, 0x51#64, 0x52#64, 0x53#64, 0x54#64]
  illegal_cmd : s.err = .illegal → legal s.cmd = false
  divZero_cmd : s.err = .divZero → s.cmd ∈ [0x41#64, 0x42#64, 0x54#64]
  none_cmd : s.err = .none → legal s.cmd = true ∨ s.cmd = 0#64

/-- R42: `zs` is one order in which the port can receive what two hosts send, each host's accesses in their own order.
The block fixes none of these orders. -/
inductive Interleaving : List PortEvent → List PortEvent → List PortEvent → Prop where
  | nil : Interleaving [] [] []
  | left {xs ys zs : List PortEvent} (e : PortEvent) : Interleaving xs ys zs → Interleaving (e :: xs) ys (e :: zs)
  | right {xs ys zs : List PortEvent} (e : PortEvent) : Interleaving xs ys zs → Interleaving xs (e :: ys) (e :: zs)

end Sys2Proof.Machine
end

