-- ==== Sys2Proof/Certificates/Slice0/Obligations.lean ====
section
/-! DEFINITION. The statements about the model, each from the rules of spec/ that its docstring names. A statement about
a command's effect gives the whole next state: what it does not name is unchanged. -/

open Sys2Proof Sys2Proof.Machine

/-! ### Encoding -/

/-- R43, R44, R47: every command that has a word is read back from it, SHL with every amount of 0 to 255. -/
def Obligations.DecodeOfEncode : Prop := ∀ i : Instr, i.WellFormed → decode (encode i) = .ok i

/-- R47: the opcode map. Each command is encoded by exactly the words the map lists for it. -/
def Obligations.OpcodeMap : Prop :=
  ∀ w : Word,
    (decode w = .ok .zero ↔ w = 0x0000000000000001#64) ∧
    (decode w = .ok .copy ↔ w = 0x0000000000000002#64) ∧
    (decode w = .ok .fromu32 ↔ w = 0x0000000000000003#64) ∧
    (decode w = .ok .fromi32 ↔ w = 0x0000000000000004#64) ∧
    (decode w = .ok .tou32 ↔ w = 0x0000000000000005#64) ∧
    (decode w = .ok .toi32 ↔ w = 0x0000000000000006#64) ∧
    (decode w = .ok .clrovf ↔ w = 0x000000000000000F#64) ∧
    (decode w = .ok .cmp ↔ w = 0x0000000000000010#64) ∧
    (decode w = .ok .scmp ↔ w = 0x0000000000000011#64) ∧
    (∀ n : Nat, decode w = .ok (.shl n) ↔ n < 256 ∧ w.toNat = 0x20 + 0x100 * n) ∧
    (decode w = .ok .add ↔ w = 0x0000000000000030#64) ∧
    (decode w = .ok .sub ↔ w = 0x0000000000000031#64) ∧
    (decode w = .ok .mul ↔ w = 0x0000000000000040#64) ∧
    (decode w = .ok .div ↔ w = 0x0000000000000041#64) ∧
    (decode w = .ok .divmod ↔ w = 0x0000000000000042#64) ∧
    (decode w = .ok .neg ↔ w = 0x0000000000000050#64) ∧
    (decode w = .ok .sadd ↔ w = 0x0000000000000051#64) ∧
    (decode w = .ok .ssub ↔ w = 0x0000000000000052#64) ∧
    (decode w = .ok .smul ↔ w = 0x0000000000000053#64) ∧
    (decode w = .ok .sdiv ↔ w = 0x0000000000000054#64)

/-- R46: the words that encode a command are those that meet the rule's three conditions. Every other word raises
IllegalCommand and changes nothing but CMD, ERR and LOVF. -/
def Obligations.LegalWords : Prop :=
  ∀ w : Word,
    (legal w = true ↔
      w.toNat % 2 ^ 8 ∈ [0x01, 0x02, 0x03, 0x04, 0x05, 0x06, 0x0F, 0x10, 0x11, 0x20, 0x30, 0x31, 0x40, 0x41, 0x42,
          0x50, 0x51, 0x52, 0x53, 0x54] ∧
      w.toNat / 2 ^ 16 = 0 ∧
      (w.toNat / 2 ^ 8 % 2 ^ 8 = 0 ∨ w.toNat % 2 ^ 8 = 0x20)) ∧
    (legal w = true → ∃ i, decode w = .ok i) ∧
    (legal w = false → ∀ s : State, execute w s = .next { s with cmd := w, err := .illegal, lovf := false })

/-- R47: some words of the opcode map, written out, one or more of each family. -/
def Obligations.WrittenOutWords : Prop :=
  decode 0x0000000000000003#64 = .ok .fromu32 ∧
  decode 0x000000000000000F#64 = .ok .clrovf ∧
  decode 0x0000000000000011#64 = .ok .scmp ∧
  decode 0x0000000000001120#64 = .ok (.shl 17) ∧
  decode 0x0000000000000031#64 = .ok .sub ∧
  decode 0x0000000000000042#64 = .ok .divmod ∧
  decode 0x0000000000000054#64 = .ok .sdiv

/-- R37, R43: a value is carried least significant byte first, OP is byte 0 and AMT byte 1 of a command word, and the
decoder reads a command from the eight bytes of its word, whatever follows them. -/
def Obligations.LittleEndianBytes : Prop :=
  (∀ v : Word, ∀ i : Fin 8, ((wordBytes v)[i.val]?).map BitVec.toNat = some (v.toNat / 2 ^ (8 * i.val) % 2 ^ 8)) ∧
  (∀ v : Word, littleEndian (wordBytes v) = v.toNat) ∧
  (∀ v : Word, (wordBytes v)[0]? = some (opField v) ∧ (wordBytes v)[1]? = some (amtField v)) ∧
  (∀ (v : Word) (i : Instr) (rest : List Byte), decode v = .ok i → decodeBytes (wordBytes v ++ rest) = .ok (i, rest))

/-! ### The port and the register window -/

/-- R45: a write to CMD stores the word, sets ERR = NONE and LOVF = 0, and runs the command the word encodes on the
state so left, or raises IllegalCommand there; the host's reply follows (R33). -/
def Obligations.StepRunsDecodedCommand : Prop :=
  ∀ (s : State) (acc : Access) (rest : List PortEvent) (word : Word),
    s.port = .access acc :: rest → acc.offset = 0x20 → acc.bytes = 8 → acc.kind = .write word →
    (∀ (i : Instr) (t : State), decode word = .ok i →
      exec i { s with port := rest, cmd := word, err := .none, lovf := false } = .next t →
      step s = .next { t with replies := t.replies ++ [{ host := acc.host, kind := .done }] }) ∧
    (∀ e, decode word = .error e →
      step s = .next { s with
        port := rest
        cmd := word
        err := .illegal
        lovf := false
        replies := s.replies ++ [{ host := acc.host, kind := .done }] })

/-- R81, R86, R88: no command word stops the block. Every write to CMD completes, with a reply, and the block goes on
to the next access. -/
def Obligations.EveryCommandWriteCompletes : Prop :=
  ∀ (s : State) (acc : Access) (rest : List PortEvent) (word : Word),
    s.port = .access acc :: rest → acc.offset = 0x20 → acc.bytes = 8 → acc.kind = .write word →
    ∃ t, step s = .next t ∧ t.cmd = word ∧ t.port = rest ∧
      t.replies = s.replies ++ [{ host := acc.host, kind := .done }]

/-- R35: the register map, its "host read" and "host write" columns. A 64-bit access at each offset does what the map
says and changes nothing else. -/
def Obligations.RegisterMap : Prop :=
  ∀ (s : State) (acc : Access) (rest : List PortEvent), s.port = .access acc :: rest → acc.bytes = 8 →
    (∀ v : Word, acc.kind = .read →
      (acc.offset = 0x00 ∧ v = s.a ∨ acc.offset = 0x08 ∧ v = s.b ∨ acc.offset = 0x10 ∧ v = s.r ∨
        acc.offset = 0x18 ∧ v = 0#32 ++ s.w ∨ acc.offset = 0x20 ∧ v = s.cmd ∨ acc.offset = 0x28 ∧ v = s.status ∨
        acc.offset = 0x30 ∧ v = 0#64 ∨ acc.offset = 0x38 ∧ v = 0#64) →
      step s = .next { s with port := rest, replies := s.replies ++ [{ host := acc.host, kind := .data v }] }) ∧
    (∀ v : Word, acc.kind = .write v →
      (acc.offset = 0x00 → step s = .next { s with
        a := v, written := { s.written with a := true }, port := rest
        replies := s.replies ++ [{ host := acc.host, kind := .done }] }) ∧
      (acc.offset = 0x08 → step s = .next { s with
        b := v, written := { s.written with b := true }, port := rest
        replies := s.replies ++ [{ host := acc.host, kind := .done }] }) ∧
      (acc.offset = 0x10 → step s = .next { s with
        r := v, written := { s.written with r := true }, port := rest
        replies := s.replies ++ [{ host := acc.host, kind := .done }] }) ∧
      (acc.offset = 0x18 → step s = .next { s with
        w := BitVec.ofNat 32 v.toNat, written := { s.written with w := true }, port := rest
        replies := s.replies ++ [{ host := acc.host, kind := .done }] }) ∧
      (acc.offset = 0x20 → ∀ t, execute v { s with port := rest } = .next t →
        step s = .next { t with replies := t.replies ++ [{ host := acc.host, kind := .done }] }) ∧
      (acc.offset = 0x28 ∨ acc.offset = 0x30 ∨ acc.offset = 0x38 → step s = .next { s with
        port := rest, replies := s.replies ++ [{ host := acc.host, kind := .done }] }))

/-- R38: of the accesses with a byte in the window, the block admits exactly the 64-bit ones at a multiple of 8, and
answers every other with BusError (R84). That one which begins before the window and runs into it is a BusError too, with
a negative offset, is log entry 10 (DEDUCED). -/
def Obligations.OnlyWholeRegistersAdmitted : Prop :=
  ∀ (s : State) (acc : Access) (rest : List PortEvent), s.port = .access acc :: rest →
    0 < acc.bytes → acc.offset < 64 → 0 < acc.offset + (acc.bytes : Int) →
    (acc.bytes = 8 ∧ acc.offset % 8 = 0 → ∃ t, step s = .next t) ∧
    (¬ (acc.bytes = 8 ∧ acc.offset % 8 = 0) → step s = .fault (.busError acc.offset (8 * acc.bytes)))

/-- R33, R41: a step services the event the port received first and no other; an access gets one reply, after those
given before. With nothing received the block does not change (log entry 2, DESIGN CHOICE). That reset is such an event,
gets no reply, and leaves the events behind it and the replies as they are, is log entry 3 (DESIGN CHOICE). -/
def Obligations.PortServicedInOrder : Prop :=
  (∀ s : State, s.port = [] → step s = .next s) ∧
  (∀ (s t : State) (e : PortEvent) (rest : List PortEvent), s.port = e :: rest → step s = .next t → t.port = rest) ∧
  (∀ (s t : State) (acc : Access) (rest : List PortEvent), s.port = .access acc :: rest → step s = .next t →
    ∃ k, t.replies = s.replies ++ [{ host := acc.host, kind := k }] ∧ (k = .done ↔ acc.kind ≠ .read)) ∧
  (∀ (s t : State) (rest : List PortEvent), s.port = .reset :: rest → step s = .next t → t.replies = s.replies)

/-- R41, R19: a read of a data register, by any host, returns what the write just before it left: the value written,
for W its low 32 bits. -/
def Obligations.ReadReturnsLastWrite : Prop :=
  ∀ (s : State) (h h' : Nat) (off : Int) (v : Word) (rest : List PortEvent),
    s.port = .access { host := h, offset := off, bytes := 8, kind := .write v } ::
      .access { host := h', offset := off, bytes := 8, kind := .read } :: rest →
    off = 0x00 ∨ off = 0x08 ∨ off = 0x10 ∨ off = 0x18 →
    ∃ t t', step s = .next t ∧ step t = .next t' ∧ t'.port = rest ∧
      t'.replies = s.replies ++ [{ host := h, kind := .done },
        { host := h', kind := .data (if off = 0x18 then BitVec.ofNat 64 (v.toNat % 2 ^ 32) else v) }]

/-- R39: writing the ADD word twice adds B to A twice; writing a value to A, B, R or W twice leaves what writing it
once leaves. -/
def Obligations.WritesRepeated : Prop :=
  ∀ (s : State) (acc : Access) (rest : List PortEvent), s.port = .access acc :: .access acc :: rest →
    acc.bytes = 8 →
    (acc.offset = 0x20 → acc.kind = .write 0x0000000000000030#64 →
      ∃ t t', step s = .next t ∧ step t = .next t' ∧ t'.a = s.a + s.b + s.b ∧ t'.b = s.b) ∧
    (acc.offset = 0x00 ∨ acc.offset = 0x08 ∨ acc.offset = 0x10 ∨ acc.offset = 0x18 → ∀ v, acc.kind = .write v →
      ∃ t t', step s = .next t ∧ step t = .next t' ∧ { t' with port := t.port, replies := t.replies } = t)

/-- R34, R35: BIGNUM_BASE is a multiple of 64; an access at BIGNUM_BASE plus an offset reaches the port as an access at
that offset, after those it holds, and an access beside the window does not reach it. -/
def Obligations.WindowAtBase : Prop :=
  Config.bignumBase % 64 = 0 ∧
  (∀ (s : State) (h off n : Nat) (v : Word), off < 64 → 0 < n →
    s.memRead h (Config.bignumBase + off) n =
      { s with port := s.port ++ [.access { host := h, offset := off, bytes := n, kind := .read }] } ∧
    s.memWrite h (Config.bignumBase + off) n v =
      { s with port := s.port ++ [.access { host := h, offset := off, bytes := n, kind := .write v }] }) ∧
  (∀ (s : State) (h addr n : Nat) (v : Word), addr + n ≤ Config.bignumBase ∨ Config.bignumBase + 64 ≤ addr →
    s.memRead h addr n = s ∧ s.memWrite h addr n v = s)

/-- R34, R36: while the port holds only accesses with a byte in the window, no step finds one without; a step and the
port's receiving keep it so. -/
def Obligations.PortStaysInWindow : Prop :=
  (∀ s : State, s.PortInWindow → ∀ off width, step s ≠ .fault (.outsideWindow off width)) ∧
  (∀ s t : State, s.PortInWindow → step s = .next t → t.PortInWindow) ∧
  (∀ (s : State) (acc : Access), s.PortInWindow → (s.receive acc).PortInWindow)

/-! ### Reset -/

/-- R32: the reset state. CMD and every field of STATUS have the values of the table, the next read of STATUS returns
0x640, no data register counts as written, and W's upper half reads as 0. Nothing is said of what A, B, R and W[31:0]
hold. -/
def Obligations.ResetState : Prop :=
  ∀ (s : State) (rest : List PortEvent), s.port = .reset :: rest →
    ∃ t, step s = .next t ∧ t.cmd = 0x0000000000000000#64 ∧ t.ovf = false ∧ t.lovf = false ∧ t.err.code = 0b00#2 ∧
      t.cmp.code = 0b00#2 ∧ t.status = 0x0000000000000640#64 ∧ (∀ reg, t.written.has reg = false) ∧
      (t.readSlot (.data .w)).toNat < 2 ^ 32

/-- R97: the state after reset that a run starts from is the one reset puts the block in. Two things in it are the
model's and no rule's: what A, B, R and W hold (log entry 1, DESIGN CHOICE), and that the events the port has not
serviced and the replies given stay (log entry 3, DESIGN CHOICE). -/
def Obligations.ResetIsTheStartState : Prop :=
  ∀ (s : State) (rest : List PortEvent), s.port = .reset :: rest →
    step s = .next { State.reset with port := rest, replies := s.replies }

/-! ### STATUS -/

/-- R21, R24, R25: every bit of STATUS. ERR is never 11 and CMP never 10, and exactly one of EQ, GT and LT is 1. -/
def Obligations.StatusLayout : Prop :=
  ∀ s : State,
    s.status.getLsbD 0 = s.ovf ∧ s.status.getLsbD 1 = s.lovf ∧
    s.status.extractLsb' 2 2 = (match s.err with | .none => 0b00#2 | .divZero => 0b01#2 | .illegal => 0b10#2) ∧
    s.status.extractLsb' 4 2 = (match s.cmp with | .equal => 0b00#2 | .greater => 0b01#2 | .less => 0b11#2) ∧
    s.status.getLsbD 6 = decide (s.cmp = .equal) ∧
    s.status.getLsbD 7 = decide (s.cmp = .greater) ∧
    s.status.getLsbD 8 = decide (s.cmp = .less) ∧
    s.status.getLsbD 9 = decide (s.cmp = .equal ∨ s.cmp = .greater) ∧
    s.status.getLsbD 10 = decide (s.cmp = .equal ∨ s.cmp = .less) ∧
    s.status.toNat < 2 ^ 11

/-- R22: the sticky indicator. An overflow event sets it, and only an overflow event of one of eight commands does; only
CLROVF and reset clear it; the host reads it in bit 0 of STATUS; and no command's other effects depend on it. -/
def Obligations.OvfIsSticky : Prop :=
  (∀ s t : State, step s = .next t → s.ovf = true → t.ovf = false →
    (∃ rest, s.port = .reset :: rest) ∨
    ∃ acc rest, s.port = .access acc :: rest ∧ acc.offset = 0x20 ∧ acc.bytes = 8 ∧
      acc.kind = .write 0x000000000000000F#64) ∧
  (∀ s t : State, step s = .next t → s.ovf = false → t.ovf = true →
    t.lovf = true ∧ ∃ acc rest word, s.port = .access acc :: rest ∧ acc.offset = 0x20 ∧ acc.bytes = 8 ∧
      acc.kind = .write word ∧
      ∃ i ∈ [Instr.add, .sub, .mul, .neg, .sadd, .ssub, .smul, .sdiv], decode word = .ok i) ∧
  (∀ (i : Instr) (s t : State), s.lovf = false → exec i s = .next t → t.lovf = true → t.ovf = true) ∧
  (∀ s : State, s.status.getLsbD 0 = s.ovf) ∧
  (∀ (i : Instr) (s t : State) (o : Bool), exec i s = .next t →
    ∃ t', exec i { s with ovf := o } = .next t' ∧ { t' with ovf := t.ovf } = t)

/-- R23, and R64, R65, R68, R75: after every write to CMD, LOVF is 1 exactly when the word encodes a command whose true
result lies outside [0, 2^64 - 1], or for a signed command outside [-2^63, 2^63 - 1]; OVF is then 1. -/
def Obligations.LovfIffResultOutOfRange : Prop :=
  ∀ (s : State) (acc : Access) (rest : List PortEvent) (word : Word),
    s.port = .access acc :: rest → acc.offset = 0x20 → acc.bytes = 8 → acc.kind = .write word →
    ∃ t, step s = .next t ∧
    (t.lovf = true ↔ ∃ i n, decode word = .ok i ∧
      (trueResult i s.a s.b = some (false, n) ∧ ¬ (0 ≤ n ∧ n ≤ 2 ^ 64 - 1) ∨
        trueResult i s.a s.b = some (true, n) ∧ ¬ (-2 ^ 63 ≤ n ∧ n ≤ 2 ^ 63 - 1))) ∧
    (t.lovf = true → t.ovf = true)

/-- R24: after every write to CMD, ERR is ILLEGAL exactly when the word encodes no command, DIVZERO exactly when it
encodes DIV, DIVMOD or SDIV and B is ZERO, and NONE otherwise; the codes are those of the table. -/
def Obligations.ErrReportsTheLastCommand : Prop :=
  ∀ (s : State) (acc : Access) (rest : List PortEvent) (word : Word),
    s.port = .access acc :: rest → acc.offset = 0x20 → acc.bytes = 8 → acc.kind = .write word →
    ∃ t, step s = .next t ∧
    (t.err.code = 0b10#2 ↔ legal word = false) ∧
    (t.err.code = 0b01#2 ↔ (word = 0x41#64 ∨ word = 0x42#64 ∨ word = 0x54#64) ∧ s.b = 0#64) ∧
    (t.err.code = 0b00#2 ↔ legal word = true ∧ ¬ ((word = 0x41#64 ∨ word = 0x42#64 ∨ word = 0x54#64) ∧ s.b = 0#64))

/-- R81: errors are precise. When a write to CMD ends in an error, the state after it is the state before it, but for
CMD, ERR and LOVF = 0 (and the access itself, taken from the port and replied to). -/
def Obligations.ErrorsArePrecise : Prop :=
  ∀ (s : State) (acc : Access) (rest : List PortEvent) (word : Word),
    s.port = .access acc :: rest → acc.offset = 0x20 → acc.bytes = 8 → acc.kind = .write word →
    ∃ t, step s = .next t ∧ (t.err ≠ .none →
    t = { s with
      port := rest
      cmd := word
      err := if legal word = true then .divZero else .illegal
      lovf := false
      replies := s.replies ++ [{ host := acc.host, kind := .done }] })

/-- R25: only CMP and SCMP, and reset, change STATUS.CMP. -/
def Obligations.OnlyComparesWriteCmp : Prop :=
  ∀ s t : State, step s = .next t → t.cmp ≠ s.cmp →
    (∃ rest, s.port = .reset :: rest) ∨
    ∃ acc rest, s.port = .access acc :: rest ∧ acc.offset = 0x20 ∧ acc.bytes = 8 ∧
      (acc.kind = .write 0x0000000000000010#64 ∨ acc.kind = .write 0x0000000000000011#64)

/-- R16 to R20: the frame of every command. B is never written; R is written by DIVMOD alone, W by TOU32 and TOI32
alone, A by neither these two nor CLROVF, CMP and SCMP; OVF by CLROVF and the eight commands with overflow events alone;
and CMD, the port and the replies by none. -/
def Obligations.CommandFrame : Prop :=
  ∀ (i : Instr) (s t : State), exec i s = .next t →
    t.b = s.b ∧ t.written.b = s.written.b ∧ t.cmd = s.cmd ∧ t.port = s.port ∧ t.replies = s.replies ∧
    (i ≠ .divmod → t.r = s.r ∧ t.written.r = s.written.r) ∧
    (i ≠ .tou32 → i ≠ .toi32 → t.w = s.w ∧ t.written.w = s.written.w) ∧
    (i = .tou32 ∨ i = .toi32 ∨ i = .clrovf ∨ i = .cmp ∨ i = .scmp → t.a = s.a ∧ t.written.a = s.written.a) ∧
    (i ∉ [Instr.clrovf, .add, .sub, .mul, .neg, .sadd, .ssub, .smul, .sdiv] → t.ovf = s.ovf ∧ t.lovf = s.lovf) ∧
    (i ≠ .cmp → i ≠ .scmp → t.cmp = s.cmp) ∧
    (i ≠ .div → i ≠ .divmod → i ≠ .sdiv → t.err = s.err)

/-- R20, the "reads" column: what a command writes depends on the registers of its read set alone. -/
def Obligations.CommandReadsOnlyItsReadSet : Prop :=
  ∀ (i : Instr) (s s' t t' : State), (∀ reg ∈ readSet i, s.x reg = s'.x reg) →
    s.err = .none → s'.err = .none → s.lovf = s'.lovf → s.ovf = s'.ovf → s.cmp = s'.cmp →
    exec i s = .next t → exec i s' = .next t' →
    t.err = t'.err ∧ t.lovf = t'.lovf ∧ t.ovf = t'.ovf ∧ t.cmp = t'.cmp ∧
      (t.err = .none → ∀ reg ∈ writeSet i, t.x reg = t'.x reg)

/-! ### Invariants -/

/-- R22 to R24, R26, R81: STATUS always describes the word in CMD. Every step keeps it so. -/
def Obligations.StatusDescribesCmd : Prop := ∀ s t : State, StatusInv s → step s = .next t → StatusInv t

/-- R32: the reset state is one in which STATUS describes CMD. -/
def Obligations.ResetStatusDescribesCmd : Prop := StatusInv State.reset

/-! ### Registers that nothing has written -/

/-- R31, R87: a read of an unwritten register, by the host or by a command that lists it among its operands, is
UnwrittenRead in the spec's model, even with a zero divisor; the first such register in the order A, B is named (log
entry 6, DEDUCED). A word that encodes no command reads nothing. -/
def Obligations.UnwrittenReadsFault : Prop :=
  (∀ (s : State) (acc : Access) (rest : List PortEvent), s.port = .access acc :: rest → acc.bytes = 8 →
    acc.kind = .read →
    (acc.offset = 0x00 → s.written.a = false → checkedStep s = .fault (.unwrittenRead .a)) ∧
    (acc.offset = 0x08 → s.written.b = false → checkedStep s = .fault (.unwrittenRead .b)) ∧
    (acc.offset = 0x10 → s.written.r = false → checkedStep s = .fault (.unwrittenRead .r)) ∧
    (acc.offset = 0x18 → s.written.w = false → checkedStep s = .fault (.unwrittenRead .w))) ∧
  (∀ (s : State) (acc : Access) (rest : List PortEvent) (word : Word) (i : Instr), s.port = .access acc :: rest →
    acc.offset = 0x20 → acc.bytes = 8 → acc.kind = .write word → decode word = .ok i →
    (i ∈ [Instr.tou32, .toi32, .cmp, .scmp, .add, .sub, .mul, .div, .divmod, .neg, .sadd, .ssub, .smul, .sdiv] ∨
        (∃ n, i = .shl n) → s.written.a = false → checkedStep s = .fault (.unwrittenRead .a)) ∧
    (i ∈ [Instr.copy, .cmp, .scmp, .add, .sub, .mul, .div, .divmod, .sadd, .ssub, .smul, .sdiv] →
      (i = .copy ∨ s.written.a = true) → s.written.b = false → checkedStep s = .fault (.unwrittenRead .b)) ∧
    (i = .fromu32 ∨ i = .fromi32 → s.written.w = false → checkedStep s = .fault (.unwrittenRead .w))) ∧
  (∀ (s : State) (acc : Access) (rest : List PortEvent) (word : Word), s.port = .access acc :: rest →
    acc.offset = 0x20 → acc.bytes = 8 → acc.kind = .write word → legal word = false →
    ∃ t, checkedStep s = .next t ∧ t.err = .illegal)

/-- R31, R85, R87: the spec's model and the block differ in nothing but the reads of unwritten registers. When the
checked step raises UnwrittenRead, the register it names is unwritten, and the first access at the port is a host read
of it or a command whose "reads" column (R20) names it. In every other state the checked step answers what the step
answers. That "written" is kept in State is log entry 14 (DEDUCED). -/
def Obligations.CheckedStepIsStep : Prop :=
  ∀ s : State,
    (∀ t, checkedStep s = .next t → step s = .next t) ∧
    (∀ f, checkedStep s = .fault (.machine f) → step s = .fault f) ∧
    (∀ reg, checkedStep s = .fault (.unwrittenRead reg) → s.written.has reg = false ∧
      ∃ acc rest, s.port = .access acc :: rest ∧ acc.bytes = 8 ∧
        (acc.kind = .read ∧
            (acc.offset = 0x00 ∧ reg = .a ∨ acc.offset = 0x08 ∧ reg = .b ∨ acc.offset = 0x10 ∧ reg = .r ∨
              acc.offset = 0x18 ∧ reg = .w) ∨
          acc.offset = 0x20 ∧ ∃ word i, acc.kind = .write word ∧ decode word = .ok i ∧
            (reg = .a ∧ (i ∈ [Instr.tou32, .toi32, .cmp, .scmp, .add, .sub, .mul, .div, .divmod, .neg, .sadd, .ssub,
                .smul, .sdiv] ∨ ∃ n, i = .shl n) ∨
              reg = .b ∧ i ∈ [Instr.copy, .cmp, .scmp, .add, .sub, .mul, .div, .divmod, .sadd, .ssub, .smul, .sdiv] ∨
              reg = .w ∧ (i = .fromu32 ∨ i = .fromi32)))) ∧
    ((∀ reg, checkedStep s ≠ .fault (.unwrittenRead reg)) →
      (∀ t, step s = .next t → checkedStep s = .next t) ∧
      ∀ f, step s = .fault f → checkedStep s = .fault (.machine f))

/-- R31, R87: the checked step goes on, as the step does, whenever the registers that the access reads are written,
whatever the others are: a read of a written register, of CMD, of STATUS or of a reserved offset; a host write of any
register; a command all of whose operands are written (ZERO and CLROVF have none); a word that encodes no command; and
where the port holds no access, nothing (log entry 2, DESIGN CHOICE) or reset (log entry 3, DESIGN CHOICE). -/
def Obligations.CheckedStepGoesOn : Prop :=
  (∀ s : State, (∀ acc rest, s.port ≠ .access acc :: rest) → ∃ t, checkedStep s = .next t ∧ step s = .next t) ∧
  ∀ (s : State) (acc : Access) (rest : List PortEvent), s.port = .access acc :: rest → acc.bytes = 8 →
    (acc.kind = .read →
      (acc.offset = 0x00 ∧ s.written.a = true ∨ acc.offset = 0x08 ∧ s.written.b = true ∨
        acc.offset = 0x10 ∧ s.written.r = true ∨ acc.offset = 0x18 ∧ s.written.w = true ∨
        acc.offset = 0x20 ∨ acc.offset = 0x28 ∨ acc.offset = 0x30 ∨ acc.offset = 0x38) →
      ∃ t, checkedStep s = .next t ∧ step s = .next t) ∧
    (∀ v : Word, acc.kind = .write v →
      (acc.offset = 0x00 ∨ acc.offset = 0x08 ∨ acc.offset = 0x10 ∨ acc.offset = 0x18 ∨ acc.offset = 0x28 ∨
        acc.offset = 0x30 ∨ acc.offset = 0x38 ∨ acc.offset = 0x20 ∧ legal v = false) →
      ∃ t, checkedStep s = .next t ∧ step s = .next t) ∧
    (∀ (word : Word) (i : Instr), acc.kind = .write word → acc.offset = 0x20 → decode word = .ok i →
      (i ∈ [Instr.zero, .clrovf] ∨ i = .copy ∧ s.written.b = true ∨
        (i = .fromu32 ∨ i = .fromi32) ∧ s.written.w = true ∨
        (i ∈ [Instr.tou32, .toi32, .neg] ∨ ∃ n, i = .shl n) ∧ s.written.a = true ∨
        i ∈ [Instr.cmp, .scmp, .add, .sub, .mul, .div, .divmod, .sadd, .ssub, .smul, .sdiv] ∧ s.written.a = true ∧
          s.written.b = true) →
      ∃ t, checkedStep s = .next t ∧ step s = .next t)

/-- R31, R85: no run of the spec's model rests on an unspecified value. Two states that differ at most in what the
unwritten registers hold run alike for any number of steps: the same faults, and states that again so agree, with the
same replies to the hosts. So the values log entry 1 names at reset (DESIGN CHOICE) decide nothing in such a run. -/
def Obligations.UnwrittenValuesDecideNothing : Prop :=
  ∀ (k : Nat) (s s' : State), AgreeOnWritten s s' →
    (∀ f, checkedRun k s = .fault f → checkedRun k s' = .fault f) ∧
    (∀ t, checkedRun k s = .next t → ∃ t', checkedRun k s' = .next t' ∧ AgreeOnWritten t t')

/-! ### Representation, conversion and indicator control -/

/-- R52, R53: ZERO and COPY. -/
def Obligations.ZeroAndCopy : Prop :=
  decode 0x0000000000000001#64 = .ok .zero ∧ decode 0x0000000000000002#64 = .ok .copy ∧
  ∀ s : State,
    exec .zero s = .next { s with a := 0x0000000000000000#64, written := { s.written with a := true } } ∧
    exec .copy s = .next { s with a := s.b, written := { s.written with a := true } }

/-- R54, R55: FROMU32 gives A the unsigned value of W[31:0], FROMI32 its signed value. -/
def Obligations.FromConversions : Prop :=
  decode 0x0000000000000003#64 = .ok .fromu32 ∧ decode 0x0000000000000004#64 = .ok .fromi32 ∧
  ∀ s : State,
    (∃ v : Word, v.toNat = s.w.toNat ∧
      exec .fromu32 s = .next { s with a := v, written := { s.written with a := true } }) ∧
    (∃ v : Word, v.toInt = s.w.toInt ∧
      exec .fromi32 s = .next { s with a := v, written := { s.written with a := true } })

/-- R56, R57: TOU32 and TOI32 give W[31:0] the low 32 bits of A, with no flag; when the signed value of A fits, W's
signed value is it. A host read of W then has zeros above. -/
def Obligations.ToConversions : Prop :=
  decode 0x0000000000000005#64 = .ok .tou32 ∧ decode 0x0000000000000006#64 = .ok .toi32 ∧
  ∀ s : State, ∃ v : Word32, v.toNat = s.a.toNat % 2 ^ 32 ∧
    (-2 ^ 31 ≤ s.a.toInt → s.a.toInt ≤ 2 ^ 31 - 1 → v.toInt = s.a.toInt) ∧
    exec .tou32 s = .next { s with w := v, written := { s.written with w := true } } ∧
    exec .toi32 s = .next { s with w := v, written := { s.written with w := true } } ∧
    ({ s with w := v }.readSlot (.data .w)).toNat = s.a.toNat % 2 ^ 32

/-- R58: CLROVF clears OVF and nothing else, and no other command clears it; LOVF stays as `Execute` left it, 0. -/
def Obligations.ClrovfClearsOvf : Prop :=
  decode 0x000000000000000F#64 = .ok .clrovf ∧
  (∀ s : State, exec .clrovf s = .next { s with ovf := false }) ∧
  (∀ (i : Instr) (s t : State), exec i s = .next t → s.ovf = true → t.ovf = false → i = .clrovf) ∧
  ∀ s : State, execute 0x000000000000000F#64 s =
    .next { s with cmd := 0x000000000000000F#64, err := .none, ovf := false, lovf := false }

/-! ### Comparator -/

/-- R59: CMP is the sign of `u(A) - u(B)`, whatever the byte scan does on the way. -/
def Obligations.CmpIsUnsignedOrder : Prop :=
  decode 0x0000000000000010#64 = .ok .cmp ∧
  ∀ s : State, exec .cmp s = .next { s with
    cmp := if s.a.toNat = s.b.toNat then .equal else if s.b.toNat < s.a.toNat then .greater else .less }

/-- R60: SCMP is the sign of `s(A) - s(B)`. -/
def Obligations.ScmpIsSignedOrder : Prop :=
  decode 0x0000000000000011#64 = .ok .scmp ∧
  ∀ s : State, exec .scmp s = .next { s with
    cmp := if s.a.toInt = s.b.toInt then .equal else if s.b.toInt < s.a.toInt then .greater else .less }

/-- R61: the laws of the comparator. -/
def Obligations.ComparatorLaws : Prop :=
  ∀ s : State, ∃ c d c' d' : CmpResult,
    exec .cmp s = .next { s with cmp := c } ∧ exec .scmp s = .next { s with cmp := d } ∧
    exec .cmp { s with a := s.b, b := s.a } = .next { s with a := s.b, b := s.a, cmp := c' } ∧
    exec .scmp { s with a := s.b, b := s.a } = .next { s with a := s.b, b := s.a, cmp := d' } ∧
    (c = .equal ↔ s.a = s.b) ∧ (d = .equal ↔ s.a = s.b) ∧
    c'.code = -c.code ∧ d'.code = -d.code ∧
    (s.a.getLsbD 63 = s.b.getLsbD 63 → c = d) ∧
    (s.a.getLsbD 63 ≠ s.b.getLsbD 63 → c ≠ .equal ∧ d.code = -c.code) ∧
    ∀ k : CmpResult, ([k.eq, k.gt, k.lt].filter id).length = 1 ∧ k.ge = (k.eq || k.gt) ∧ k.le = (k.eq || k.lt)

/-! ### Shifter -/

/-- R62: SHL by every amount of the command word: bits move up, zeros enter below, 64 or more give ZERO, and no flag
changes. -/
def Obligations.ShlShiftsLeft : Prop :=
  ∀ n : Nat, n < 256 → decode (BitVec.ofNat 64 (0x20 + 0x100 * n)) = .ok (.shl n) ∧
    ∀ s : State, ∃ v : Word, (∀ j, j < 64 → v.getLsbD j = (decide (n ≤ j) && s.a.getLsbD (j - n))) ∧
      (64 ≤ n → v = 0x0000000000000000#64) ∧
      exec (.shl n) s = .next { s with a := v, written := { s.written with a := true } }

/-! ### Adder and subtractor -/

/-- R64: ADD, and SUB of the same B restores A when the ADD had no overflow event. -/
def Obligations.AddWraps : Prop :=
  decode 0x0000000000000030#64 = .ok .add ∧
  (∀ s : State, exec .add s = .next { s with
    a := BitVec.ofNat 64 ((s.a.toNat + s.b.toNat) % 2 ^ 64)
    written := { s.written with a := true }
    lovf := decide (s.a.toNat + s.b.toNat > 2 ^ 64 - 1)
    ovf := s.ovf || decide (s.a.toNat + s.b.toNat > 2 ^ 64 - 1) }) ∧
  ∀ s t : State, exec .add s = .next t → t.lovf = false → ∃ t', exec .sub t = .next t' ∧ t'.a = s.a

/-- R65: SUB. -/
def Obligations.SubWraps : Prop :=
  decode 0x0000000000000031#64 = .ok .sub ∧
  ∀ s : State, exec .sub s = .next { s with
    a := if s.b.toNat ≤ s.a.toNat then BitVec.ofNat 64 (s.a.toNat - s.b.toNat)
      else BitVec.ofNat 64 (2 ^ 64 - (s.b.toNat - s.a.toNat))
    written := { s.written with a := true }
    lovf := decide (s.b.toNat > s.a.toNat)
    ovf := s.ovf || decide (s.b.toNat > s.a.toNat) }

/-! ### Multiplier and divider -/

/-- R68: MUL. -/
def Obligations.MulWraps : Prop :=
  decode 0x0000000000000040#64 = .ok .mul ∧
  ∀ s : State, exec .mul s = .next { s with
    a := BitVec.ofNat 64 (s.a.toNat * s.b.toNat % 2 ^ 64)
    written := { s.written with a := true }
    lovf := decide (s.a.toNat * s.b.toNat > 2 ^ 64 - 1)
    ovf := s.ovf || decide (s.a.toNat * s.b.toNat > 2 ^ 64 - 1) }

/-- R71: DIV by a nonzero B writes the quotient and neither R nor a flag; by ZERO it raises DivideByZero. -/
def Obligations.DivQuotient : Prop :=
  decode 0x0000000000000041#64 = .ok .div ∧
  (∀ s : State, s.b ≠ 0#64 → exec .div s = .next { s with
    a := BitVec.ofNat 64 (s.a.toNat / s.b.toNat), written := { s.written with a := true } }) ∧
  ∀ s : State, s.b = 0#64 → exec .div s = .next { s with err := .divZero }

/-- R72: DIVMOD by a nonzero B writes the quotient to A and the remainder to R, which determine the dividend; by ZERO it
raises DivideByZero. -/
def Obligations.DivmodQuotientRemainder : Prop :=
  decode 0x0000000000000042#64 = .ok .divmod ∧
  (∀ s : State, s.b ≠ 0#64 → ∃ q m : Word, q.toNat = s.a.toNat / s.b.toNat ∧ m.toNat = s.a.toNat % s.b.toNat ∧
    s.a.toNat = q.toNat * s.b.toNat + m.toNat ∧ m.toNat < s.b.toNat ∧
    exec .divmod s = .next { s with a := q, r := m, written := { s.written with a := true, r := true } }) ∧
  ∀ s : State, s.b = 0#64 → exec .divmod s = .next { s with err := .divZero }

/-- R70, R82: with B = ZERO, DIV, DIVMOD and SDIV, and no other command, raise DivideByZero: A, R, W, OVF and CMP are
unchanged, LOVF is 0 and ERR is DIVZERO. -/
def Obligations.ZeroDivisorRaises : Prop :=
  ∀ (s : State) (word : Word) (i : Instr), s.b = 0#64 → decode word = .ok i →
    (i = .div ∨ i = .divmod ∨ i = .sdiv →
      execute word s = .next { s with cmd := word, lovf := false, err := .divZero }) ∧
    (i ≠ .div → i ≠ .divmod → i ≠ .sdiv → ∃ t, execute word s = .next t ∧ t.err = .none)

/-! ### Negation and signed commands -/

/-- R74: NEG, and NEG twice gives A back. -/
def Obligations.NegNegates : Prop :=
  decode 0x0000000000000050#64 = .ok .neg ∧
  (∀ s : State, ∃ v : Word, (v.toNat = (2 ^ 64 - s.a.toNat) % 2 ^ 64) ∧
    (s.a ≠ 0x8000000000000000#64 → v.toInt = -s.a.toInt) ∧
    exec .neg s = .next { s with
      a := v
      written := { s.written with a := true }
      lovf := decide (s.a = 0x8000000000000000#64)
      ovf := s.ovf || decide (s.a = 0x8000000000000000#64) }) ∧
  ∀ s t : State, exec .neg s = .next t → ∃ t', exec .neg t = .next t' ∧ t'.a = s.a

/-- R76: SADD. It writes the bits ADD writes; the event is the change of the common sign. -/
def Obligations.SaddResult : Prop :=
  decode 0x0000000000000051#64 = .ok .sadd ∧
  ∀ s : State, ∃ (v : Word) (e : Bool), (v.toInt - (s.a.toInt + s.b.toInt)) % 2 ^ 64 = 0 ∧
    (e = true ↔ ¬ (-2 ^ 63 ≤ s.a.toInt + s.b.toInt ∧ s.a.toInt + s.b.toInt ≤ 2 ^ 63 - 1)) ∧
    (e = true ↔ s.a.msb = s.b.msb ∧ v.msb ≠ s.a.msb) ∧
    (∀ t, exec .add s = .next t → t.a = v) ∧
    exec .sadd s = .next { s with
      a := v, written := { s.written with a := true }, lovf := e, ovf := s.ovf || e }

/-- R77: SSUB. It writes the bits SUB writes; the event needs different signs and a result that has not A's. -/
def Obligations.SsubResult : Prop :=
  decode 0x0000000000000052#64 = .ok .ssub ∧
  ∀ s : State, ∃ (v : Word) (e : Bool), (v.toInt - (s.a.toInt - s.b.toInt)) % 2 ^ 64 = 0 ∧
    (e = true ↔ ¬ (-2 ^ 63 ≤ s.a.toInt - s.b.toInt ∧ s.a.toInt - s.b.toInt ≤ 2 ^ 63 - 1)) ∧
    (e = true ↔ s.a.msb ≠ s.b.msb ∧ v.msb ≠ s.a.msb) ∧
    (∀ t, exec .sub s = .next t → t.a = v) ∧
    exec .ssub s = .next { s with
      a := v, written := { s.written with a := true }, lovf := e, ovf := s.ovf || e }

/-- R78: SMUL. It writes the bits MUL writes. -/
def Obligations.SmulResult : Prop :=
  decode 0x0000000000000053#64 = .ok .smul ∧
  ∀ s : State, ∃ (v : Word) (e : Bool), (v.toInt - s.a.toInt * s.b.toInt) % 2 ^ 64 = 0 ∧
    (e = true ↔ ¬ (-2 ^ 63 ≤ s.a.toInt * s.b.toInt ∧ s.a.toInt * s.b.toInt ≤ 2 ^ 63 - 1)) ∧
    (∀ t, exec .mul s = .next t → t.a = v) ∧
    exec .smul s = .next { s with
      a := v, written := { s.written with a := true }, lovf := e, ovf := s.ovf || e }

/-- R79: SDIV by a nonzero B writes the quotient rounded toward zero, with an event only for MIN by -1, and not R; by
ZERO it raises DivideByZero. -/
def Obligations.SdivResult : Prop :=
  decode 0x0000000000000054#64 = .ok .sdiv ∧
  (∀ s : State, s.b ≠ 0#64 → ∃ (v : Word) (e : Bool),
    (e = true ↔ s.a = 0x8000000000000000#64 ∧ s.b = 0xFFFFFFFFFFFFFFFF#64) ∧
    (e = false → v.toInt = s.a.toInt.tdiv s.b.toInt) ∧ (e = true → v = 0x8000000000000000#64) ∧
    exec .sdiv s = .next { s with
      a := v, written := { s.written with a := true }, lovf := e, ovf := s.ovf || e }) ∧
  ∀ s : State, s.b = 0#64 → exec .sdiv s = .next { s with err := .divZero }

/-- R75: the overflow rule of the signed commands, for all five at once: A gets the true result modulo 2^64, and the
event is exactly that the true result is no 64-bit signed value. -/
def Obligations.SignedOverflowRule : Prop :=
  ∀ (i : Instr) (s : State) (n : Int), trueResult i s.a s.b = some (true, n) →
    exec i s = .next { s with
      a := BitVec.ofInt 64 n
      written := { s.written with a := true }
      lovf := decide (n < -2 ^ 63 ∨ 2 ^ 63 - 1 < n)
      ovf := s.ovf || decide (n < -2 ^ 63 ∨ 2 ^ 63 - 1 < n) }

/-! ### The reference algorithms -/

/-- R63: the byte shifter's two steps give what SHL writes. -/
def Obligations.ReferenceShifterAgrees : Prop :=
  ∀ (s t : State) (n : Nat), n < 256 → exec (.shl n) s = .next t → t.a = refShiftLeft s.a n

/-- R66: the byte adder gives ADD's result and its overflow event. -/
def Obligations.ReferenceAdderAgrees : Prop :=
  ∀ s t : State, exec .add s = .next t → (t.a, t.lovf) = refAdd s.a s.b

/-- R67: the borrowing byte subtractor gives SUB's result and its overflow event. -/
def Obligations.ReferenceSubtractorAgrees : Prop :=
  ∀ s t : State, exec .sub s = .next t → (t.a, t.lovf) = refSub s.a s.b

/-- R69: the schoolbook multiplier gives MUL's result and its overflow event. -/
def Obligations.ReferenceMultiplierAgrees : Prop :=
  ∀ s t : State, exec .mul s = .next t → (t.a, t.lovf) = refMul s.a s.b

/-- R73: the restoring divider gives DIVMOD's quotient and remainder, for every nonzero divisor. That its inner loop makes
at most 255 subtractions by definition is log entry 13 (DEDUCED). -/
def Obligations.ReferenceDividerAgrees : Prop :=
  ∀ s t : State, s.b ≠ 0#64 → exec .divmod s = .next t → (t.a, t.r) = refDivmod s.a s.b

/-- R76 to R80: the sign dispatch writes what SADD, SSUB and SMUL write, and for a nonzero divisor what SDIV writes. How
it treats mixed signs in SADD and SSUB is log entry 13 (DEDUCED). -/
def Obligations.SignDispatchAgrees : Prop :=
  ∀ s t : State,
    (exec .sadd s = .next t → t.a = refSadd s.a s.b) ∧
    (exec .ssub s = .next t → t.a = refSsub s.a s.b) ∧
    (exec .smul s = .next t → t.a = refSmul s.a s.b) ∧
    (s.b ≠ 0#64 → exec .sdiv s = .next t → t.a = refSdiv s.a s.b)

/-! ### Programs of the notation, and several hosts -/

/-- R51: the pseudo-instructions, loaded on an idle port, do what their names say. -/
def Obligations.PseudoInstructions : Prop :=
  ∀ (s : State) (h : Nat), s.port = [] →
    (∀ v : Int, (AsmPseudo.liU32 v).wf = true → ∃ t, core.run 2 (s.load h (AsmPseudo.liU32 v).expand) = .next t ∧
      (t.a.toNat : Int) = v ∧ t.b = s.b ∧ t.port = []) ∧
    (∀ v : Int, (AsmPseudo.liI32 v).wf = true → ∃ t, core.run 2 (s.load h (AsmPseudo.liI32 v).expand) = .next t ∧
      t.a.toInt = v ∧ t.b = s.b ∧ t.port = []) ∧
    (∀ v : Int, (AsmPseudo.li v).wf = true → ∃ t, core.run 1 (s.load h (AsmPseudo.li v).expand) = .next t ∧
      t.a = BitVec.ofInt 64 v ∧ t.b = s.b ∧ t.port = []) ∧
    (∃ t, core.run 1 (s.load h AsmPseudo.mov.expand) = .next t ∧ t.a = s.b ∧ t.port = []) ∧
    (∃ t, core.run 2 (s.load h AsmPseudo.inc.expand) = .next t ∧ t.a = s.a + 1#64 ∧ t.b = 1#64 ∧ t.port = []) ∧
    (∃ t, core.run 2 (s.load h AsmPseudo.dec.expand) = .next t ∧ t.a = s.a - 1#64 ∧ t.b = 1#64 ∧ t.port = [])

/-- R42: two hosts that share the block race. One host writes A and reads it back while another writes A: by the order
in which the port receives the three accesses, the first host reads its own value or the other's. -/
def Obligations.SharedBlockRaces : Prop :=
  ∀ (s : State) (h h' : Nat) (v v' : Word),
    ∀ r ∈ [v, v'], ∃ zs t,
      Interleaving
        [.access { host := h, offset := 0x00, bytes := 8, kind := .write v },
          .access { host := h, offset := 0x00, bytes := 8, kind := .read }]
        [.access { host := h', offset := 0x00, bytes := 8, kind := .write v' }] zs ∧
      core.run 3 { s with port := zs } = .next t ∧
      ({ host := h, kind := .data r } : Reply) ∈ t.replies.drop s.replies.length
end

