-- ==== Sys2Proof/Laws/Decode.lean ====
section
/-! SUPPORT. The fields of a command word as numbers, and what the decoder can answer. -/

namespace Sys2Proof

theorem opField_toNat (word : Word) : (opField word).toNat = word.toNat % 2 ^ 8 := by
  simp [opField]

theorem amtField_toNat (word : Word) : (amtField word).toNat = word.toNat / 2 ^ 8 % 2 ^ 8 := by
  simp [amtField, Nat.shiftRight_eq_div_pow]

theorem rsvField_toNat (word : Word) : (rsvField word).toNat = word.toNat / 2 ^ 16 := by
  have := word.isLt
  simp only [rsvField, BitVec.extractLsb'_toNat, Nat.shiftRight_eq_div_pow]
  omega

/-- A word is its three fields. -/
theorem word_eq_fields (word : Word) :
    word.toNat = (opField word).toNat + 2 ^ 8 * (amtField word).toNat + 2 ^ 16 * (rsvField word).toNat := by
  rw [opField_toNat, amtField_toNat, rsvField_toNat]
  omega

theorem encode_toNat (i : Instr) : (encode i).toNat = i.opcode.toNat + 2 ^ 8 * i.amt.toNat := by
  have := i.opcode.isLt
  simp only [encode, BitVec.toNat_append, BitVec.toNat_ofNat, Nat.zero_mod, Nat.zero_shiftLeft, Nat.zero_or]
  rw [← Nat.shiftLeft_add_eq_or_of_lt this, Nat.shiftLeft_eq]
  omega

theorem opField_encode (i : Instr) : opField (encode i) = i.opcode := by
  apply BitVec.eq_of_toNat_eq
  have := i.opcode.isLt
  rw [opField_toNat, encode_toNat]
  omega

theorem amtField_encode (i : Instr) : amtField (encode i) = i.amt := by
  apply BitVec.eq_of_toNat_eq
  have := i.opcode.isLt
  have := i.amt.isLt
  rw [amtField_toNat, encode_toNat]
  omega

theorem rsvField_encode (i : Instr) : rsvField (encode i) = 0#48 := by
  apply BitVec.eq_of_toNat_eq
  have := i.opcode.isLt
  have := i.amt.isLt
  rw [rsvField_toNat, encode_toNat]
  simp only [BitVec.toNat_ofNat]
  omega

/-- What a decoded command says of the word: its opcode maps to the command, RSV is 0, and AMT is 0 but for SHL. -/
theorem decode_eq_ok_iff (word : Word) (i : Instr) :
    decode word = .ok i ↔ instrOfOpcode (opField word) (amtField word) = some i ∧ rsvField word = 0#48 ∧
      (amtField word = 0#8 ∨ opField word = opShl) := by
  unfold decode
  split
  · simp_all
  · rename_i j hj
    rw [hj]
    by_cases h1 : rsvField word = 0#48 <;> by_cases h2 : amtField word = 0#8 <;>
      by_cases h3 : opField word = opShl <;> simp [h1, h2, h3]

end Sys2Proof
end

