-- ==== Sys2Proof/Laws/State.lean ====
section
/-! SUPPORT. The fields of a state after each update: one lemma for a field and an update, so that no proof unfolds a
record update. -/

namespace Sys2Proof.Machine

variable (s : State)

/-! ### Written -/

@[simp] theorem Written.mark_a (m : Written) : m.mark .a = { m with a := true } := rfl
@[simp] theorem Written.mark_b (m : Written) : m.mark .b = { m with b := true } := rfl
@[simp] theorem Written.mark_r (m : Written) : m.mark .r = { m with r := true } := rfl
@[simp] theorem Written.mark_w (m : Written) : m.mark .w = { m with w := true } := rfl
@[simp] theorem Written.has_a (m : Written) : m.has .a = m.a := rfl
@[simp] theorem Written.has_b (m : Written) : m.has .b = m.b := rfl
@[simp] theorem Written.has_r (m : Written) : m.has .r = m.r := rfl
@[simp] theorem Written.has_w (m : Written) : m.has .w = m.w := rfl

theorem Written.has_mark (m : Written) (reg reg' : DataReg) :
    (m.mark reg).has reg' = (m.has reg' || decide (reg' = reg)) := by
  cases reg <;> cases reg' <;> simp

@[simp] theorem Written.has_none (reg : DataReg) : Written.none.has reg = false := by cases reg <;> rfl

/-! ### Reading a register -/

@[simp] theorem State.x_a : s.x .a = s.a := rfl
@[simp] theorem State.x_b : s.x .b = s.b := rfl
@[simp] theorem State.x_r : s.x .r = s.r := rfl
@[simp] theorem State.x_w : s.x .w = zext64 s.w := rfl

/-! ### Writing a register -/

section
variable (reg : DataReg) (v : Word)

theorem State.setX_a_eq : s.setX .a v = { s with a := v, written := s.written.mark .a } := rfl
theorem State.setX_b_eq : s.setX .b v = { s with b := v, written := s.written.mark .b } := rfl
theorem State.setX_r_eq : s.setX .r v = { s with r := v, written := s.written.mark .r } := rfl
theorem State.setX_w_eq : s.setX .w v = { s with w := low32 v, written := s.written.mark .w } := rfl

@[simp] theorem State.setX_cmd : (s.setX reg v).cmd = s.cmd := by cases reg <;> rfl
@[simp] theorem State.setX_ovf : (s.setX reg v).ovf = s.ovf := by cases reg <;> rfl
@[simp] theorem State.setX_lovf : (s.setX reg v).lovf = s.lovf := by cases reg <;> rfl
@[simp] theorem State.setX_err : (s.setX reg v).err = s.err := by cases reg <;> rfl
@[simp] theorem State.setX_cmp : (s.setX reg v).cmp = s.cmp := by cases reg <;> rfl
@[simp] theorem State.setX_written : (s.setX reg v).written = s.written.mark reg := by cases reg <;> rfl
@[simp] theorem State.setX_port : (s.setX reg v).port = s.port := by cases reg <;> rfl
@[simp] theorem State.setX_replies : (s.setX reg v).replies = s.replies := by cases reg <;> rfl

@[simp] theorem State.setX_a_a : (s.setX .a v).a = v := rfl
@[simp] theorem State.setX_a_b : (s.setX .a v).b = s.b := rfl
@[simp] theorem State.setX_a_r : (s.setX .a v).r = s.r := rfl
@[simp] theorem State.setX_a_w : (s.setX .a v).w = s.w := rfl
@[simp] theorem State.setX_b_a : (s.setX .b v).a = s.a := rfl
@[simp] theorem State.setX_b_b : (s.setX .b v).b = v := rfl
@[simp] theorem State.setX_b_r : (s.setX .b v).r = s.r := rfl
@[simp] theorem State.setX_b_w : (s.setX .b v).w = s.w := rfl
@[simp] theorem State.setX_r_a : (s.setX .r v).a = s.a := rfl
@[simp] theorem State.setX_r_b : (s.setX .r v).b = s.b := rfl
@[simp] theorem State.setX_r_r : (s.setX .r v).r = v := rfl
@[simp] theorem State.setX_r_w : (s.setX .r v).w = s.w := rfl
@[simp] theorem State.setX_w_a : (s.setX .w v).a = s.a := rfl
@[simp] theorem State.setX_w_b : (s.setX .w v).b = s.b := rfl
@[simp] theorem State.setX_w_r : (s.setX .w v).r = s.r := rfl
@[simp] theorem State.setX_w_w : (s.setX .w v).w = low32 v := rfl

/-- A register write leaves every other register alone. -/
theorem State.x_setX_ne {reg reg' : DataReg} (h : reg' ≠ reg) : (s.setX reg v).x reg' = s.x reg' := by
  cases reg <;> cases reg' <;> first | rfl | exact absurd rfl h

/-- A read after a write of a 64-bit register gives the value written. -/
theorem State.x_setX_self {reg : DataReg} (h : reg ≠ .w) : (s.setX reg v).x reg = v := by
  cases reg <;> first | rfl | exact absurd rfl h

end

/-! ### Overflow events and the other flags -/

section
variable (e : Bool)

@[simp] theorem State.ovfEvent_a : (s.ovfEvent e).a = s.a := rfl
@[simp] theorem State.ovfEvent_b : (s.ovfEvent e).b = s.b := rfl
@[simp] theorem State.ovfEvent_r : (s.ovfEvent e).r = s.r := rfl
@[simp] theorem State.ovfEvent_w : (s.ovfEvent e).w = s.w := rfl
@[simp] theorem State.ovfEvent_cmd : (s.ovfEvent e).cmd = s.cmd := rfl
@[simp] theorem State.ovfEvent_ovf : (s.ovfEvent e).ovf = (s.ovf || e) := rfl
@[simp] theorem State.ovfEvent_lovf : (s.ovfEvent e).lovf = e := rfl
@[simp] theorem State.ovfEvent_err : (s.ovfEvent e).err = s.err := rfl
@[simp] theorem State.ovfEvent_cmp : (s.ovfEvent e).cmp = s.cmp := rfl
@[simp] theorem State.ovfEvent_written : (s.ovfEvent e).written = s.written := rfl
@[simp] theorem State.ovfEvent_port : (s.ovfEvent e).port = s.port := rfl
@[simp] theorem State.ovfEvent_replies : (s.ovfEvent e).replies = s.replies := rfl

end

theorem State.clearOvf_eq : s.clearOvf = { s with ovf := false } := rfl

theorem State.setCmp_eq (c : CmpResult) : s.setCmp c = { s with cmp := c } := rfl

/-! ### The start of a command, and an error -/

theorem State.beginCommand_eq (word : Word) :
    s.beginCommand word = { s with cmd := word, err := .none, lovf := false } := rfl

@[simp] theorem State.beginCommand_a (word : Word) : (s.beginCommand word).a = s.a := rfl
@[simp] theorem State.beginCommand_b (word : Word) : (s.beginCommand word).b = s.b := rfl
@[simp] theorem State.beginCommand_r (word : Word) : (s.beginCommand word).r = s.r := rfl
@[simp] theorem State.beginCommand_w (word : Word) : (s.beginCommand word).w = s.w := rfl
@[simp] theorem State.beginCommand_cmd (word : Word) : (s.beginCommand word).cmd = word := rfl
@[simp] theorem State.beginCommand_ovf (word : Word) : (s.beginCommand word).ovf = s.ovf := rfl
@[simp] theorem State.beginCommand_lovf (word : Word) : (s.beginCommand word).lovf = false := rfl
@[simp] theorem State.beginCommand_err (word : Word) : (s.beginCommand word).err = .none := rfl
@[simp] theorem State.beginCommand_cmp (word : Word) : (s.beginCommand word).cmp = s.cmp := rfl
@[simp] theorem State.beginCommand_written (word : Word) : (s.beginCommand word).written = s.written := rfl
@[simp] theorem State.beginCommand_port (word : Word) : (s.beginCommand word).port = s.port := rfl
@[simp] theorem State.beginCommand_replies (word : Word) : (s.beginCommand word).replies = s.replies := rfl

theorem State.raise_eq (e : ErrCode) : s.raise e = { s with err := e } := rfl

/-! ### Replies and reset -/

theorem State.reply_eq (h : Nat) (k : ReplyKind) :
    s.reply h k = { s with replies := s.replies ++ [{ host := h, kind := k }] } := rfl

theorem State.resetBlock_eq :
    s.resetBlock = { State.reset with port := s.port, replies := s.replies } := rfl

end Sys2Proof.Machine
end

