-- ==== Sys2Proof/Laws/Values.lean ====
section
/-! SUPPORT. The interpretations of R10 and the comparator, in the terms of the library: `u` is `toNat`, `sv` is
`toInt`, `bits64` is `BitVec.ofInt`. -/

namespace Sys2Proof.Machine

/-! ### Unsigned and signed values -/

theorem u_eq (v : Word) : u v = (v.toNat : Int) := rfl

theorem u_nonneg (v : Word) : 0 ≤ u v := Int.natCast_nonneg _

theorem u_lt (v : Word) : u v < 2 ^ 64 := by have := v.isLt; unfold u; omega

theorem u_eq_zero_iff (v : Word) : u v = 0 ↔ v = 0#64 := by
  constructor
  · intro h; apply BitVec.eq_of_toNat_eq; unfold u at h; simpa using h
  · rintro rfl; rfl

theorem sv_eq (v : Word) : sv v = v.toInt := by
  have := v.isLt
  unfold sv u
  rw [BitVec.toInt_eq_msb_cond]
  rfl

theorem sv_lt (v : Word) : sv v < 2 ^ 63 := by rw [sv_eq]; exact BitVec.toInt_lt

theorem le_sv (v : Word) : -2 ^ 63 ≤ sv v := by rw [sv_eq]; exact BitVec.le_toInt v

theorem sv_emod (v : Word) : sv v % 2 ^ 64 = u v := by
  have := v.isLt
  unfold sv u; split <;> omega

/-! ### bits64 -/

theorem bits64_toNat (n : Int) : ((bits64 n).toNat : Int) = n % 2 ^ 64 := by
  unfold bits64
  rw [BitVec.toNat_ofInt]
  have : 0 ≤ n % 2 ^ 64 := Int.emod_nonneg _ (by decide)
  exact Int.toNat_of_nonneg this

theorem bits64_u (v : Word) : bits64 (u v) = v := by
  apply BitVec.eq_of_toNat_eq
  have h := bits64_toNat (u v)
  have := v.isLt
  have := u_eq v
  omega

theorem bits64_sv (v : Word) : bits64 (sv v) = v := by
  apply BitVec.eq_of_toNat_eq
  have h := bits64_toNat (sv v)
  rw [sv_emod] at h
  have := u_eq v
  omega

/-- `bits64` forgets multiples of 2^64 and nothing else. -/
theorem bits64_eq_iff (m n : Int) : bits64 m = bits64 n ↔ m % 2 ^ 64 = n % 2 ^ 64 := by
  rw [← bits64_toNat, ← bits64_toNat]
  constructor
  · intro h; rw [h]
  · intro h; apply BitVec.eq_of_toNat_eq; omega

theorem bits64_natCast (n : Nat) : bits64 (n : Int) = BitVec.ofNat 64 n := by
  unfold bits64; exact BitVec.ofInt_natCast 64 n

theorem bits64_add_u (a b : Word) : bits64 (u a + u b) = a + b := by
  apply BitVec.eq_of_toNat_eq
  have h := bits64_toNat (u a + u b)
  rw [BitVec.toNat_add]
  unfold u at *; omega

theorem bits64_sub_u (a b : Word) : bits64 (u a - u b) = a - b := by
  apply BitVec.eq_of_toNat_eq
  have h := bits64_toNat (u a - u b)
  have := a.isLt; have := b.isLt
  rw [BitVec.toNat_sub]
  unfold u at *; omega

/-- A value that fits is read back from its bits. -/
theorem sv_bits64 {n : Int} (h : inS64 n = true) : sv (bits64 n) = n := by
  have h' : -2 ^ 63 ≤ n ∧ n ≤ 2 ^ 63 - 1 := by simpa [inS64] using h
  have h1 := sv_emod (bits64 n)
  have h2 := bits64_toNat n
  have := sv_lt (bits64 n)
  have := le_sv (bits64 n)
  unfold u at h1
  omega

/-! ### Overflow conditions -/

theorem aboveU64_iff (n : Int) : aboveU64 n = true ↔ 2 ^ 64 ≤ n := by
  unfold aboveU64
  rw [decide_eq_true_iff]
  omega

theorem aboveU_iff (v w : Word) : aboveU v w = true ↔ w.toNat < v.toNat := by
  unfold aboveU u
  rw [decide_eq_true_iff]
  omega

theorem not_inS64_iff (n : Int) : (!inS64 n) = true ↔ n < -2 ^ 63 ∨ 2 ^ 63 - 1 < n := by
  unfold inS64
  rw [Bool.not_eq_true', decide_eq_false_iff_not]
  omega

/-! ### Conversions -/

theorem low32_toNat (v : Word) : (low32 v).toNat = v.toNat % 2 ^ 32 := by
  simp [low32]

theorem zext64_toNat (w : Word32) : (zext64 w).toNat = w.toNat := by
  have := w.isLt
  simp only [zext64, BitVec.toNat_setWidth]
  omega

@[simp] theorem low32_zext64 (w : Word32) : low32 (zext64 w) = w := by
  apply BitVec.eq_of_toNat_eq
  rw [low32_toNat, zext64_toNat]
  have := w.isLt
  omega

theorem sext64_toInt (w : Word32) : (sext64 w).toInt = w.toInt := by
  unfold sext64
  exact BitVec.toInt_signExtend_of_le (by decide)

/-! ### Bytes and the comparator -/

theorem byteOf_toNat (v : Word) (i : Nat) : (byteOf v i).toNat = v.toNat / 2 ^ (8 * i) % 2 ^ 8 := by
  simp [byteOf, Nat.shiftRight_eq_div_pow]

/-- R59: the scan of the lowest `n` bytes compares the values of those bytes. -/
theorem scanBytes_eq (a b : Word) (n : Nat) :
    scanBytes a b n =
      CmpResult.ofSign ((a.toNat % 2 ^ (8 * n) : Nat) - (b.toNat % 2 ^ (8 * n) : Nat) : Int) := by
  induction n with
  | zero => simp [scanBytes, CmpResult.ofSign, Nat.mod_one]
  | succ n ih =>
    have key : ∀ x : Nat, x % 2 ^ (8 * (n + 1)) = x % 2 ^ (8 * n) + 2 ^ (8 * n) * (x / 2 ^ (8 * n) % 2 ^ 8) := by
      intro x
      rw [show 8 * (n + 1) = 8 * n + 8 by omega, Nat.pow_add, Nat.mod_mul]
    have hlt : ∀ x : Nat, x % 2 ^ (8 * n) < 2 ^ (8 * n) := fun x => Nat.mod_lt _ (by positivity)
    have ha := hlt a.toNat
    have hb := hlt b.toNat
    rw [key, key]
    simp only [scanBytes, ne_eq, ← BitVec.toNat_inj, byteOf_toNat, ih]
    generalize a.toNat / 2 ^ (8 * n) % 2 ^ 8 = p
    generalize b.toNat / 2 ^ (8 * n) % 2 ^ 8 = q
    generalize a.toNat % 2 ^ (8 * n) = x at *
    generalize b.toNat % 2 ^ (8 * n) = y at *
    generalize 2 ^ (8 * n) = P at *
    rcases Nat.lt_trichotomy p q with h | h | h
    · have : P * (p + 1) ≤ P * q := Nat.mul_le_mul_left P h
      rw [Nat.mul_add] at this
      unfold CmpResult.ofSign
      rw [if_pos (by omega), if_neg (by omega), if_neg (by push_cast; omega), if_neg (by push_cast; omega)]
    · subst h
      rw [if_neg (by simp)]
      congr 1
      push_cast; omega
    · have : P * (q + 1) ≤ P * p := Nat.mul_le_mul_left P h
      rw [Nat.mul_add] at this
      unfold CmpResult.ofSign
      rw [if_pos (by omega), if_pos (by omega), if_neg (by push_cast; omega), if_pos (by push_cast; omega)]

end Sys2Proof.Machine
end

