-- ==== Sys2Proof/Laws/Exec.lean ====
section
/-! SUPPORT. The meaning of each command as one record update, so that no proof unfolds a meaning or the operations it
calls. -/

namespace Sys2Proof.Machine

variable (s : State)

/-- R70: with B = ZERO the command ends in DivideByZero, else it goes on. -/
theorem State.unlessDivisorZero_eq (go : State) :
    s.unlessDivisorZero go = if s.b = 0#64 then { s with err := .divZero } else go := by
  unfold State.unlessDivisorZero
  simp only [State.x_b, u_eq_zero_iff, State.raise_eq]

/-- R75: the next state of a signed command with the true result `n`. -/
theorem State.signedResult_eq (n : Int) : s.signedResult n = { s with
    a := bits64 n, written := s.written.mark .a, lovf := !inS64 n, ovf := s.ovf || !inS64 n } := rfl

theorem exec_fromu32 : exec .fromu32 s = .next { s with a := zext64 s.w, written := s.written.mark .a } := by
  show Host.Outcome.next (s.setX .a (zext64 (low32 (zext64 s.w)))) = _
  rw [low32_zext64]; rfl

theorem exec_fromi32 : exec .fromi32 s = .next { s with a := sext64 s.w, written := s.written.mark .a } := by
  show Host.Outcome.next (s.setX .a (sext64 (low32 (zext64 s.w)))) = _
  rw [low32_zext64]; rfl

theorem exec_tou32 : exec .tou32 s = .next { s with w := low32 s.a, written := s.written.mark .w } := by
  show Host.Outcome.next (s.setX .w (zext64 (low32 s.a))) = _
  rw [State.setX_w_eq, low32_zext64]

theorem exec_toi32 : exec .toi32 s = .next { s with w := low32 s.a, written := s.written.mark .w } :=
  exec_tou32 s

theorem exec_cmp : exec .cmp s = .next { s with cmp := compareUnsigned s.a s.b } := rfl

theorem exec_scmp : exec .scmp s = .next { s with cmp := compareSigned s.a s.b } := rfl

theorem exec_shl (n : Nat) :
    exec (.shl n) s = .next { s with a := shiftLeft s.a n, written := s.written.mark .a } := rfl

theorem exec_add : exec .add s = .next { s with
    a := bits64 (u s.a + u s.b)
    written := s.written.mark .a
    lovf := aboveU64 (u s.a + u s.b)
    ovf := s.ovf || aboveU64 (u s.a + u s.b) } := rfl

theorem exec_sub : exec .sub s = .next { s with
    a := bits64 (u s.a - u s.b)
    written := s.written.mark .a
    lovf := aboveU s.b s.a
    ovf := s.ovf || aboveU s.b s.a } := rfl

theorem exec_mul : exec .mul s = .next { s with
    a := bits64 (u s.a * u s.b)
    written := s.written.mark .a
    lovf := aboveU64 (u s.a * u s.b)
    ovf := s.ovf || aboveU64 (u s.a * u s.b) } := rfl

theorem exec_div_of_ne (h : s.b ≠ 0#64) :
    exec .div s = .next { s with a := bits64 (u s.a / u s.b), written := s.written.mark .a } := by
  show Host.Outcome.next (s.unlessDivisorZero _) = _
  rw [State.unlessDivisorZero_eq, if_neg h]; rfl

theorem exec_divmod_of_ne (h : s.b ≠ 0#64) :
    exec .divmod s = .next { s with
      a := bits64 (u s.a / u s.b), r := bits64 (u s.a % u s.b), written := (s.written.mark .a).mark .r } := by
  show Host.Outcome.next (s.unlessDivisorZero _) = _
  rw [State.unlessDivisorZero_eq, if_neg h]; rfl

theorem exec_neg : exec .neg s = .next { s with
    a := bits64 (-sv s.a)
    written := s.written.mark .a
    lovf := s.a == Word.MIN
    ovf := s.ovf || s.a == Word.MIN } := rfl

theorem exec_sadd : exec .sadd s = .next (s.signedResult (sv s.a + sv s.b)) := rfl

theorem exec_ssub : exec .ssub s = .next (s.signedResult (sv s.a - sv s.b)) := rfl

theorem exec_smul : exec .smul s = .next (s.signedResult (sv s.a * sv s.b)) := rfl

theorem exec_sdiv_of_ne (h : s.b ≠ 0#64) : exec .sdiv s = .next (s.signedResult (truncDiv (sv s.a) (sv s.b))) := by
  show Host.Outcome.next (s.unlessDivisorZero _) = _
  rw [State.unlessDivisorZero_eq, if_neg h]; rfl

end Sys2Proof.Machine
end

