-- ==== Sys2Proof/Laws/PerInstr.lean ====
section
/-! SUPPORT. A fact about every command as syntax, one lemma a constructor: the fields of its word (R43, R47). -/

namespace Sys2Proof.Laws.EncodedFields

/-- The word of `i` holds its opcode, which the opcode map lists, its amount, and RSV = 0; and the map gives the command
back from the two. -/
def Statement (i : Instr) : Prop :=
  i.WellFormed → opField (encode i) ∈ opcodes ∧ amtField (encode i) = i.amt ∧ rsvField (encode i) = 0#48 ∧
    instrOfOpcode (opField (encode i)) (amtField (encode i)) = some i

/-- The fields are read back for any command whose opcode and amount the map takes. -/
theorem of_map {i : Instr} (h : i.opcode ∈ opcodes ∧ instrOfOpcode i.opcode i.amt = some i) : Statement i := by
  intro _
  rw [opField_encode, amtField_encode]
  exact ⟨h.1, rfl, rsvField_encode i, h.2⟩

theorem zero : Statement .zero := of_map (by decide)
theorem copy : Statement .copy := of_map (by decide)
theorem fromu32 : Statement .fromu32 := of_map (by decide)
theorem fromi32 : Statement .fromi32 := of_map (by decide)
theorem tou32 : Statement .tou32 := of_map (by decide)
theorem toi32 : Statement .toi32 := of_map (by decide)
theorem clrovf : Statement .clrovf := of_map (by decide)
theorem cmp : Statement .cmp := of_map (by decide)
theorem scmp : Statement .scmp := of_map (by decide)
theorem shl (amount : Nat) : Statement (.shl amount) := by
  intro h
  have hlt : amount < 256 := of_decide_eq_true h
  refine of_map ⟨by simp [Instr.opcode, opcodes, opShl], ?_⟩ h
  show some (Instr.shl (BitVec.ofNat 8 amount).toNat) = _
  rw [BitVec.toNat_ofNat, Nat.mod_eq_of_lt hlt]
theorem add : Statement .add := of_map (by decide)
theorem sub : Statement .sub := of_map (by decide)
theorem mul : Statement .mul := of_map (by decide)
theorem div : Statement .div := of_map (by decide)
theorem divmod : Statement .divmod := of_map (by decide)
theorem neg : Statement .neg := of_map (by decide)
theorem sadd : Statement .sadd := of_map (by decide)
theorem ssub : Statement .ssub := of_map (by decide)
theorem smul : Statement .smul := of_map (by decide)
theorem sdiv : Statement .sdiv := of_map (by decide)

end Sys2Proof.Laws.EncodedFields
end

