-- ==== Sys2Proof/Laws/Port.lean ====
section
/-! SUPPORT. What a step can do, said once: the slots of the window, servicing an access, executing a word. -/

namespace Sys2Proof.Machine

/-! ### Slots (R35) -/

@[simp] theorem slotAt_0x00 : slotAt 0x00 = some (.data .a) := rfl
@[simp] theorem slotAt_0x08 : slotAt 0x08 = some (.data .b) := rfl
@[simp] theorem slotAt_0x10 : slotAt 0x10 = some (.data .r) := rfl
@[simp] theorem slotAt_0x18 : slotAt 0x18 = some (.data .w) := rfl
@[simp] theorem slotAt_0x20 : slotAt 0x20 = some .cmd := rfl
@[simp] theorem slotAt_0x28 : slotAt 0x28 = some .status := rfl
@[simp] theorem slotAt_0x30 : slotAt 0x30 = some .reserved := rfl
@[simp] theorem slotAt_0x38 : slotAt 0x38 = some .reserved := rfl

/-- The offsets at which a slot begins, and which slot it is. -/
theorem slotAt_cases {off : Int} {slot : Slot} (h : slotAt off = some slot) :
    off = 0x00 ∧ slot = .data .a ∨ off = 0x08 ∧ slot = .data .b ∨ off = 0x10 ∧ slot = .data .r ∨
      off = 0x18 ∧ slot = .data .w ∨ off = 0x20 ∧ slot = .cmd ∨ off = 0x28 ∧ slot = .status ∨
      off = 0x30 ∧ slot = .reserved ∨ off = 0x38 ∧ slot = .reserved := by
  unfold slotAt at h
  split at h
  case isFalse => cases h
  case isTrue hoff =>
    obtain ⟨h0, h8⟩ := hoff
    obtain ⟨k, hk⟩ : ∃ k : Nat, off = 8 * (k : Int) := ⟨(off / 8).toNat, by omega⟩
    subst hk
    have hk : (8 * (k : Int) / 8).toNat = k := by omega
    rw [hk] at h
    have hlt : k < 8 := by
      have := (List.getElem?_eq_some_iff.mp h).1
      simpa [slots] using this
    interval_cases k <;> simp_all [slots]

/-- R34: the accesses with a byte in the window. -/
theorem Access.touchesWindow_iff (acc : Access) :
    acc.touchesWindow = true ↔ 0 < acc.bytes ∧ acc.offset < 64 ∧ 0 < acc.offset + (acc.bytes : Int) := by
  unfold Access.touchesWindow
  rw [decide_eq_true_iff]
  rfl

/-- The slot of an admitted access, by its width and offset. -/
theorem Access.slot_eq_some_iff (acc : Access) (slot : Slot) :
    acc.slot = some slot ↔ acc.bytes = 8 ∧ slotAt acc.offset = some slot := by
  unfold Access.slot Config.accessBytes
  split <;> simp_all

/-- Only CMD's slot is CMD. -/
theorem Access.slot_eq_cmd_iff (acc : Access) : acc.slot = some .cmd ↔ acc.bytes = 8 ∧ acc.offset = 0x20 := by
  rw [Access.slot_eq_some_iff]
  constructor
  · rintro ⟨hb, hs⟩
    have := slotAt_cases hs
    simp_all
  · rintro ⟨hb, ho⟩
    rw [ho]; exact ⟨hb, slotAt_0x20⟩

/-! ### Executing a word (R45) -/

theorem execute_of_ok {word : Word} {i : Instr} (h : decode word = .ok i) (s : State) :
    execute word s = exec i (s.beginCommand word) := by
  unfold execute; rw [h]

theorem execute_of_error {word : Word} {e : DecodeError} (h : decode word = .error e) (s : State) :
    execute word s = .next ((s.beginCommand word).raise .illegal) := by
  unfold execute; rw [h]

/-- Every command ends in a next state; an error is one too (R81). -/
theorem exec_isNext (i : Instr) (s : State) : ∃ t, exec i s = .next t := by
  cases i <;> exact ⟨_, rfl⟩

/-! ### A step -/

theorem step_idle {s : State} (h : s.port = []) : step s = .next s := by
  unfold step servicePort; rw [h]

theorem step_reset {s : State} {rest : List PortEvent} (h : s.port = .reset :: rest) :
    step s = .next { State.reset with port := rest, replies := s.replies } := by
  unfold step servicePort; rw [h]; rfl

theorem step_access {s : State} {acc : Access} {rest : List PortEvent} (h : s.port = .access acc :: rest) :
    step s = service acc { s with port := rest } := by
  unfold step servicePort; rw [h]

@[simp] theorem replyAfter_next (h : Nat) (k : ReplyKind) (s : State) :
    replyAfter h k (.next s) = .next (s.reply h k) := rfl

theorem service_read {acc : Access} {slot : Slot} (hs : acc.slot = some slot) (hk : acc.kind = .read) (s : State) :
    service acc s = .next (s.reply acc.host (.data (s.readSlot slot))) := by
  unfold service; rw [hs, hk]

theorem service_write {acc : Access} {slot : Slot} {v : Word} (hs : acc.slot = some slot) (hk : acc.kind = .write v)
    (s : State) : service acc s = replyAfter acc.host .done (s.writeSlot slot v) := by
  unfold service; rw [hs, hk]

/-- A step that reads a slot. -/
theorem step_read {s : State} {acc : Access} {rest : List PortEvent} {slot : Slot} (hp : s.port = .access acc :: rest)
    (hb : acc.bytes = 8) (ho : slotAt acc.offset = some slot) (hk : acc.kind = .read) :
    step s = .next { s with
      port := rest, replies := s.replies ++ [{ host := acc.host, kind := .data (s.readSlot slot) }] } := by
  rw [step_access hp, service_read ((acc.slot_eq_some_iff slot).2 ⟨hb, ho⟩) hk]
  cases slot <;> rfl

/-- A step that writes a data register. -/
theorem step_write_data {s : State} {acc : Access} {rest : List PortEvent} {reg : DataReg} {v : Word}
    (hp : s.port = .access acc :: rest) (hb : acc.bytes = 8) (ho : slotAt acc.offset = some (.data reg))
    (hk : acc.kind = .write v) :
    step s = .next (({ s with port := rest }.setX reg v).reply acc.host .done) := by
  rw [step_access hp, service_write ((acc.slot_eq_some_iff _).2 ⟨hb, ho⟩) hk]
  rfl

/-- A step that writes STATUS or a reserved slot. -/
theorem step_write_ignored {s : State} {acc : Access} {rest : List PortEvent} {slot : Slot} {v : Word}
    (hp : s.port = .access acc :: rest) (hb : acc.bytes = 8) (ho : slotAt acc.offset = some slot)
    (hi : slot = .status ∨ slot = .reserved) (hk : acc.kind = .write v) :
    step s = .next ({ s with port := rest }.reply acc.host .done) := by
  rw [step_access hp, service_write ((acc.slot_eq_some_iff _).2 ⟨hb, ho⟩) hk]
  rcases hi with rfl | rfl <;> rfl

/-- A step that writes CMD. -/
theorem step_write_cmd {s : State} {acc : Access} {rest : List PortEvent} {word : Word}
    (hp : s.port = .access acc :: rest) (ho : acc.offset = 0x20) (hb : acc.bytes = 8) (hk : acc.kind = .write word) :
    step s = replyAfter acc.host .done (execute word { s with port := rest }) := by
  rw [step_access hp, service_write ((acc.slot_eq_cmd_iff).2 ⟨hb, ho⟩) hk]
  rfl

/-- What a step that goes on has done: nothing, reset, a read, or a write with all that it executes. -/
theorem step_next_cases {s t : State} (h : step s = .next t) :
    (s.port = [] ∧ t = s) ∨
    (∃ rest, s.port = .reset :: rest ∧ t = { State.reset with port := rest, replies := s.replies }) ∨
    (∃ acc rest slot, s.port = .access acc :: rest ∧ acc.slot = some slot ∧ acc.kind = .read ∧
      t = { s with port := rest }.reply acc.host (.data ({ s with port := rest }.readSlot slot))) ∨
    (∃ acc rest slot v t', s.port = .access acc :: rest ∧ acc.slot = some slot ∧ acc.kind = .write v ∧
      { s with port := rest }.writeSlot slot v = .next t' ∧ t = t'.reply acc.host .done) := by
  rcases hp : s.port with _ | ⟨_ | _, rest⟩
  · rw [step_idle hp] at h; cases h; exact .inl ⟨rfl, rfl⟩
  · rename_i acc
    rw [step_access hp] at h
    rcases hs : acc.slot with _ | slot
    · unfold service at h; rw [hs] at h; dsimp only at h; split at h <;> cases h
    · rcases hk : acc.kind with _ | v
      · rw [service_read hs hk] at h; cases h
        exact .inr (.inr (.inl ⟨acc, rest, slot, rfl, hs, hk, rfl⟩))
      · rw [service_write hs hk] at h
        rcases hw : ({ s with port := rest } : State).writeSlot slot v with t' | f | r
        · rw [hw] at h; cases h
          exact .inr (.inr (.inr ⟨acc, rest, slot, v, t', rfl, hs, hk, hw, rfl⟩))
        · rw [hw] at h; cases h
        · rw [hw] at h; cases h
  · rw [step_reset hp] at h; cases h
    exact .inr (.inl ⟨rest, rfl, rfl⟩)

end Sys2Proof.Machine
end

