-- ==== Sys2Proof/Laws/Reference.lean ====
section
/-! SUPPORT. What the loops of the reference algorithms compute, as numbers: one lemma for each. -/

namespace Sys2Proof.Machine

theorem bytesValue_byteNats (v : Word) : bytesValue (byteNats v) = v.toNat := by
  have := v.isLt
  simp only [byteNats, wordBytes, List.map, bytesValue, byteOf_toNat]
  omega

theorem byteNats_length (v : Word) : (byteNats v).length = 8 := rfl

theorem byteNats_lt (v : Word) : ∀ d ∈ byteNats v, d < 256 := by
  intro d hd
  obtain ⟨b, _, rfl⟩ := List.mem_map.1 hd
  exact b.isLt

/-- The low `n` bytes of a number. -/
theorem bytesValue_take (ds : List Nat) (hd : ∀ d ∈ ds, d < 256) (n : Nat) :
    bytesValue (ds.take n) = bytesValue ds % 256 ^ n := by
  induction ds generalizing n with
  | nil => simp [bytesValue]
  | cons d ds ih =>
    cases n with
    | zero => simp [bytesValue, Nat.mod_one]
    | succ n =>
      have := hd d (by simp)
      simp only [List.take_succ_cons, bytesValue, pow_succ]
      rw [ih (fun x hx => hd x (by simp [hx])), Nat.mul_comm (256 ^ n) 256, Nat.mod_mul, Nat.add_mul_mod_self_left,
        Nat.add_mul_div_left _ _ (by norm_num : 0 < 256), Nat.mod_eq_of_lt this, Nat.div_eq_of_lt this, Nat.zero_add]

/-! ### Shifter -/

theorem shiftBits_value (r : Nat) (ds : List Nat) (c : Nat) :
    bytesValue (shiftBits r c ds) = (bytesValue ds * 2 ^ r + c) % 256 ^ ds.length := by
  induction ds generalizing c with
  | nil => simp [shiftBits, bytesValue, Nat.mod_one]
  | cons d ds ih =>
    have e : (d + 256 * bytesValue ds) * 2 ^ r + c = (d * 2 ^ r + c) + 256 * (bytesValue ds * 2 ^ r) := by ring
    simp only [shiftBits, bytesValue, ih, List.length_cons, pow_succ]
    rw [Nat.mul_comm (256 ^ ds.length) 256, Nat.mod_mul, e, Nat.add_mul_mod_self_left,
      Nat.add_mul_div_left _ _ (by norm_num : 0 < 256)]
    congr 3; omega

theorem shiftByteUp_value (k : Nat) (ds : List Nat) (hd : ∀ d ∈ ds, d < 256) :
    bytesValue (shiftByteUp^[k] ds) = (bytesValue ds * 256 ^ k) % 256 ^ ds.length ∧
      (shiftByteUp^[k] ds).length = ds.length := by
  induction k generalizing ds with
  | zero =>
    have := bytesValue_take ds hd ds.length
    simp only [List.take_length] at this
    simpa using this
  | succ k ih =>
    have h0 : ∀ d ∈ (0 :: ds), d < 256 := by simpa using hd
    have hl : (shiftByteUp ds).length = ds.length := by simp [shiftByteUp]
    have hv : bytesValue (shiftByteUp ds) = (256 * bytesValue ds) % 256 ^ ds.length := by
      unfold shiftByteUp
      rw [bytesValue_take _ h0]; simp [bytesValue]
    obtain ⟨g1, g2⟩ := ih (shiftByteUp ds) fun d h => h0 d (List.mem_of_mem_take h)
    rw [Function.iterate_succ, Function.comp]
    refine ⟨?_, by rw [g2, hl]⟩
    rw [g1, hv, hl, Nat.mod_mul_mod, pow_succ]
    congr 1; ring

/-! ### Adder and subtractor -/

theorem addBytes_value (ds es : List Nat) (c : Nat) (h : ds.length = es.length) :
    bytesValue (addBytes c ds es).1 + 256 ^ ds.length * (addBytes c ds es).2 =
      bytesValue ds + bytesValue es + c := by
  induction ds generalizing es c with
  | nil => cases es <;> simp_all [addBytes, bytesValue]
  | cons d ds ih =>
    cases es with
    | nil => simp at h
    | cons e es =>
      have := ih es ((d + e + c) / 256) (by simpa using h)
      simp only [addBytes, bytesValue, List.length_cons, pow_succ]
      rw [Nat.mul_comm (256 ^ ds.length) 256, Nat.mul_assoc]
      omega

theorem borrow_value (ds : List Nat) (hb : ∀ d ∈ ds, d < 256) (h : 0 < bytesValue ds) :
    ∃ ds', borrow ds = some ds' ∧ bytesValue ds' + 1 = bytesValue ds ∧ ds'.length = ds.length ∧
      ∀ d ∈ ds', d < 256 := by
  induction ds with
  | nil => simp [bytesValue] at h
  | cons d ds ih =>
    cases d with
    | zero =>
      obtain ⟨ds', h1, h2, h3, h4⟩ :=
        ih (fun x hx => hb x (by simp [hx])) (by simp only [bytesValue] at h; omega)
      exact ⟨255 :: ds', by simp [borrow, h1], by simp only [bytesValue]; omega, by simp [h3], by simpa using h4⟩
    | succ d =>
      have := hb (d + 1) (by simp)
      refine ⟨d :: ds, rfl, by simp only [bytesValue]; omega, rfl, fun x hx => ?_⟩
      rcases List.mem_cons.1 hx with rfl | hx
      · omega
      · exact hb x (by simp [hx])

theorem subBytes_value (n : Nat) (ds es : List Nat) (h1 : ds.length = n) (h2 : es.length = n)
    (hd : ∀ d ∈ ds, d < 256) (he : ∀ e ∈ es, e < 256) (h : bytesValue es ≤ bytesValue ds) :
    bytesValue (subBytes n ds es).1 + bytesValue es = bytesValue ds ∧ (subBytes n ds es).2 = false := by
  induction n generalizing ds es with
  | zero => cases ds <;> cases es <;> simp_all [subBytes, bytesValue]
  | succ n ih =>
    cases ds with
    | nil => simp at h1
    | cons d ds =>
      cases es with
      | nil => simp at h2
      | cons e es =>
        have hde := hd d (by simp)
        have hee := he e (by simp)
        have hds : ∀ x ∈ ds, x < 256 := fun x hx => hd x (by simp [hx])
        have hes : ∀ x ∈ es, x < 256 := fun x hx => he x (by simp [hx])
        simp only [bytesValue] at h
        simp only [subBytes]
        split
        · obtain ⟨ds', b1, b2, b3, b4⟩ := borrow_value ds hds (by omega)
          obtain ⟨g1, g2⟩ := ih ds' es (by simp_all) (by simpa using h2) b4 hes (by omega)
          rw [b1]
          simp only [bytesValue, g2, and_true]
          omega
        · obtain ⟨g1, g2⟩ := ih ds es (by simpa using h1) (by simpa using h2) hds hes (by omega)
          simp only [bytesValue, g2, and_true]
          omega

/-! ### Multiplier and divider -/

/-- One pair's step adds its term to a running sum `S`, of which the total holds `S mod 2^64` and the event whether
`S` has left 64 bits. -/
theorem mulStep_value (a b : Word) (p : Nat × Nat) (acc : Word × Bool) (S : Nat)
    (h1 : acc.1.toNat = S % 2 ^ 64) (h2 : acc.2 = true ↔ 2 ^ 64 ≤ S) :
    (mulStep a b acc p).1.toNat =
        (S + (byteOf b p.1).toNat * (byteOf a p.2).toNat * 256 ^ (p.1 + p.2)) % 2 ^ 64 ∧
      ((mulStep a b acc p).2 = true ↔
        2 ^ 64 ≤ S + (byteOf b p.1).toNat * (byteOf a p.2).toNat * 256 ^ (p.1 + p.2)) := by
  obtain ⟨i, j⟩ := p
  simp only [mulStep]
  have hpp := Nat.mul_lt_mul'' (byteOf b i).isLt (byteOf a j).isLt
  generalize (byteOf b i).toNat * (byteOf a j).toNat = pp at *
  generalize i + j = pos at *
  rw [BitVec.toNat_ofNat]
  simp only [Bool.or_eq_true, decide_eq_true_eq, Bool.and_eq_true, h2]
  have hlt := acc.1.isLt
  generalize acc.1.toNat = A at *
  clear h2
  unfold placeByte
  rcases Nat.lt_trichotomy pos 7 with h | h | h
  · rw [if_pos (by omega), if_pos (by omega)]
    have e : pp % 256 * 256 ^ pos + pp / 256 * 256 ^ (pos + 1) = pp * 256 ^ pos := by
      rw [pow_succ]
      conv_rhs => rw [← Nat.mod_add_div pp 256]
      ring
    rw [e]
    generalize pp * 256 ^ pos = T
    omega
  · subst h
    rw [if_pos (by omega), if_neg (by omega)]
    norm_num
    omega
  · rw [if_neg (by omega), if_neg (by omega)]
    obtain ⟨k, rfl⟩ : ∃ k, pos = k + 8 := ⟨pos - 8, by omega⟩
    have e : pp * 256 ^ (k + 8) = 2 ^ 64 * (pp * 256 ^ k) := by
      rw [pow_add]; norm_num; ring
    rw [e]
    have h1 : pp ≠ 0 → 1 ≤ pp * 256 ^ k := fun h => Nat.mul_pos (by omega) (by positivity)
    have h0 : pp = 0 → pp * 256 ^ k = 0 := by rintro rfl; simp
    generalize pp * 256 ^ k = T at *
    omega

/-- The bytes of a value, each at its place. -/
theorem sum_bytes (v : Word) : ((List.range 8).map fun i => (byteOf v i).toNat * 256 ^ i).sum = v.toNat := by
  have key : ∀ (f : Nat → Nat) (n s : Nat),
      ((List.range' s n).map fun i => f i * 256 ^ i).sum = 256 ^ s * bytesValue ((List.range' s n).map f) := by
    intro f n
    induction n with
    | zero => intro s; simp [bytesValue]
    | succ n ih =>
      intro s
      rw [List.range'_succ, List.map_cons, List.sum_cons, ih, List.map_cons, bytesValue, pow_succ, Nat.mul_add,
        Nat.mul_comm (f s), Nat.mul_assoc]
  rw [List.range_eq_range', key (fun i => (byteOf v i).toNat), ← bytesValue_byteNats, pow_zero, Nat.one_mul]
  rfl

theorem divDigit_value (b : Word) (fuel : Nat) (op : Word) (j : Nat) (hb : 0 < b.toNat)
    (h : op.toNat < (fuel + 1) * b.toNat) :
    (divDigit b fuel op j).1.toNat = op.toNat % b.toNat ∧ (divDigit b fuel op j).2 = j + op.toNat / b.toNat := by
  induction fuel generalizing op j with
  | zero =>
    have : op.toNat < b.toNat := by omega
    simp only [divDigit]
    rw [Nat.mod_eq_of_lt this, Nat.div_eq_of_lt this]; simp
  | succ f ih =>
    simp only [divDigit]
    split
    · rename_i hle
      have e : (op - b).toNat = op.toNat - b.toNat := BitVec.toNat_sub_of_le hle
      have hs := Nat.succ_mul (f + 1) b.toNat
      have := ih (op - b) (j + 1) (by rw [e]; simp only [Nat.succ_eq_add_one] at hs; omega)
      rw [e] at this
      rw [this.1, this.2, Nat.mod_eq_sub_mod hle, Nat.div_eq_sub_div hb hle]
      exact ⟨rfl, by omega⟩
    · rename_i hle
      rw [Nat.mod_eq_of_lt (by omega), Nat.div_eq_of_lt (by omega)]; simp

/-! ### Sign dispatch -/

theorem magnitude_toNat (v : Word) : ((magnitude v).toNat : Int) = |v.toInt| := by
  have e := BitVec.toInt_eq_toNat_cond v
  have := v.isLt
  have m := BitVec.msb_eq_decide v
  unfold magnitude
  split
  · rename_i h; rw [h] at m
    have m : 2 ^ 63 ≤ v.toNat := by simpa using m.symm
    have hn : v.toInt < 0 := by split at e <;> omega
    rw [abs_of_neg hn, BitVec.toNat_neg]; split at e <;> omega
  · rename_i h
    have m : ¬ 2 ^ 63 ≤ v.toNat := fun hh => h (by rw [m]; simpa using hh)
    have hn : 0 ≤ v.toInt := by split at e <;> omega
    rw [abs_of_nonneg hn]; split at e <;> omega

theorem withSign_eq (n : Bool) (v : Word) (k : Int) (h : (v.toNat : Int) % 2 ^ 64 = k % 2 ^ 64) :
    withSign n v = bits64 (if n then -k else k) := by
  have := v.isLt
  have b1 := bits64_toNat (-k)
  have b2 := bits64_toNat k
  unfold withSign
  apply BitVec.eq_of_toNat_eq
  split
  · rw [BitVec.toNat_neg]; omega
  · omega

end Sys2Proof.Machine
end

