-- ==== Sys2Proof/Laws/Safety.lean ====
section
/-! SUPPORT. What the checked step can do, said once: where it raises UnwrittenRead, and that it answers elsewhere what
the step answers. -/

namespace Sys2Proof.Machine

/-- A register that `firstUnwritten` names is one of those asked about, and unwritten. -/
theorem State.firstUnwritten_some {s : State} {regs : List DataReg} {reg : DataReg}
    (h : s.firstUnwritten regs = some reg) : reg ∈ regs ∧ s.written.has reg = false :=
  ⟨List.mem_of_find?_eq_some h, by simpa using List.find?_some h⟩

theorem State.firstUnwritten_none {s : State} {regs : List DataReg} (h : ∀ reg ∈ regs, s.written.has reg = true) :
    s.firstUnwritten regs = none :=
  List.find?_eq_none.2 fun reg hr => by simp [h reg hr]

/-- An access reads an unwritten register in two ways: it is a host read of it, or a command that has it in its read
set. -/
theorem State.unwrittenReadBy_some {s : State} {acc : Access} {reg : DataReg} (h : s.unwrittenReadBy acc = some reg) :
    s.written.has reg = false ∧
      (acc.slot = some (.data reg) ∧ acc.kind = .read ∨
        acc.slot = some .cmd ∧ ∃ word i, acc.kind = .write word ∧ decode word = .ok i ∧ reg ∈ readSet i) := by
  unfold State.unwrittenReadBy at h
  split at h
  · rename_i reg' hs hk
    obtain ⟨h1, h2⟩ := State.firstUnwritten_some h
    cases List.mem_singleton.1 h1
    exact ⟨h2, .inl ⟨hs, hk⟩⟩
  · rename_i word hs hk
    split at h
    · rename_i i hd
      obtain ⟨h1, h2⟩ := State.firstUnwritten_some h
      exact ⟨h2, .inr ⟨hs, word, i, hk, hd, h1⟩⟩
    · cases h
  · cases h

theorem State.unwrittenRead_some {s : State} {reg : DataReg} (h : s.unwrittenRead = some reg) :
    ∃ acc rest, s.port = .access acc :: rest ∧ s.unwrittenReadBy acc = some reg := by
  unfold State.unwrittenRead at h
  split at h
  · rename_i acc rest hp
    exact ⟨acc, rest, hp, h⟩
  · cases h

theorem checkedStep_unwritten_iff (s : State) (reg : DataReg) :
    checkedStep s = .fault (.unwrittenRead reg) ↔ s.unwrittenRead = some reg := by
  unfold checkedStep
  constructor
  · intro h
    split at h
    · rename_i reg' hr
      cases h
      exact hr
    · split at h <;> cases h
  · intro h
    rw [h]

theorem checkedStep_next_of_none {s t : State} (h : s.unwrittenRead = none) (ht : step s = .next t) :
    checkedStep s = .next t := by
  unfold checkedStep
  rw [h, ht]

theorem checkedStep_fault_of_none {s : State} {f : Fault} (h : s.unwrittenRead = none) (hf : step s = .fault f) :
    checkedStep s = .fault (.machine f) := by
  unfold checkedStep
  rw [h, hf]

end Sys2Proof.Machine
end

