-- ==== Sys2Proof/Tests/Slice0.lean ====
section
/-! SUPPORT. The model's own tests. Every expected value is the spec's: the opcode map (R47), the register map (R35), the
vectors V<n> and scenarios S<n> of spec/95_test_vectors.md, or the rule named. The last part shows, for each statement
with hypotheses, concrete data that meet them. -/

namespace Sys2Proof.Tests

open Sys2Proof.Machine

/-! ### Helpers -/

/-- The state after an outcome, if there is one. -/
def nextOf {φ ρ : Type} : Host.Outcome State φ ρ → Option State
  | .next t => some t
  | .fault _ => none
  | .refused _ => none

/-- The fault of an outcome, if it is one. -/
def faultOf {φ ρ : Type} : Host.Outcome State φ ρ → Option φ
  | .next _ => none
  | .fault f => some f
  | .refused _ => none

def wr (offset : Int) (v : Word) : PortEvent :=
  .access { host := 1, offset := offset, bytes := 8, kind := .write v }

def rd (offset : Int) : PortEvent :=
  .access { host := 1, offset := offset, bytes := 8, kind := .read }

/-- A state with A and B as given, every data register written, and what the port holds. -/
def st (a b : Word) (port : List PortEvent) : State :=
  { State.reset with
    a := a
    b := b
    r := 0x0000000000005555#64
    w := 0x00000077#32
    written := { a := true, b := true, r := true, w := true }
    port := port }

/-- What one write of `word` to CMD leaves in A, LOVF, OVF and ERR. -/
def run (a b word : Word) : Option (Word × Bool × Bool × ErrCode) :=
  (nextOf (step (st a b [wr 0x20 word]))).map fun t => (t.a, t.lovf, t.ovf, t.err)

/-- What one write of `word` to CMD leaves in STATUS.CMP. -/
def runCmp (a b word : Word) : Option CmpResult := (nextOf (step (st a b [wr 0x20 word]))).map State.cmp

/-- The replies to the first `k` events at the port of `s`. -/
def repliesOf (k : Nat) (s : State) : Option (List ReplyKind) :=
  (nextOf (core.run k s)).map fun t => t.replies.map Reply.kind

/-! ### Well-formedness: the one check of Instr.wf, those of the notation, and ill-formed terms they refuse -/

theorem test_wf_shl_refuses_256 : (Instr.shl 256).wf = false := by decide
theorem test_wf_shl_takes_0_and_255 : (Instr.shl 0).wf = true ∧ (Instr.shl 255).wf = true := by decide
theorem test_wf_wr_refuses_status : (AsmLine.wr .status 0).wf = false := by decide
theorem test_wf_wr_refuses_wide_literals :
    (AsmLine.wr .a (2 ^ 64)).wf = false ∧ (AsmLine.wr .a (-2 ^ 63 - 1)).wf = false := by decide
theorem test_wf_command_refuses_shl_256 : (AsmLine.command (.shl 256)).wf = false := by decide
theorem test_wf_li_u32_refuses : (AsmPseudo.liU32 (2 ^ 32)).wf = false ∧ (AsmPseudo.liU32 (-1)).wf = false := by decide
theorem test_wf_li_i32_refuses :
    (AsmPseudo.liI32 (2 ^ 31)).wf = false ∧ (AsmPseudo.liI32 (-2 ^ 31 - 1)).wf = false := by decide
theorem test_wf_li_refuses : (AsmPseudo.li (2 ^ 64)).wf = false ∧ (AsmPseudo.li (-2 ^ 63 - 1)).wf = false := by decide

/-! ### Decoding: the legal words of R47, written out -/

theorem test_decode_zero : decode 0x0000000000000001#64 = .ok .zero := by rfl
theorem test_decode_copy : decode 0x0000000000000002#64 = .ok .copy := by rfl
theorem test_decode_fromu32 : decode 0x0000000000000003#64 = .ok .fromu32 := by rfl
theorem test_decode_fromi32 : decode 0x0000000000000004#64 = .ok .fromi32 := by rfl
theorem test_decode_tou32 : decode 0x0000000000000005#64 = .ok .tou32 := by rfl
theorem test_decode_toi32 : decode 0x0000000000000006#64 = .ok .toi32 := by rfl
theorem test_decode_clrovf : decode 0x000000000000000F#64 = .ok .clrovf := by rfl
theorem test_decode_cmp : decode 0x0000000000000010#64 = .ok .cmp := by rfl
theorem test_decode_scmp : decode 0x0000000000000011#64 = .ok .scmp := by rfl
theorem test_decode_shl_17 : decode 0x0000000000001120#64 = .ok (.shl 17) := by rfl
theorem test_decode_shl_255 : decode 0x000000000000FF20#64 = .ok (.shl 255) := by rfl
theorem test_decode_add : decode 0x0000000000000030#64 = .ok .add := by rfl
theorem test_decode_sub : decode 0x0000000000000031#64 = .ok .sub := by rfl
theorem test_decode_mul : decode 0x0000000000000040#64 = .ok .mul := by rfl
theorem test_decode_div : decode 0x0000000000000041#64 = .ok .div := by rfl
theorem test_decode_divmod : decode 0x0000000000000042#64 = .ok .divmod := by rfl
theorem test_decode_neg : decode 0x0000000000000050#64 = .ok .neg := by rfl
theorem test_decode_sadd : decode 0x0000000000000051#64 = .ok .sadd := by rfl
theorem test_decode_ssub : decode 0x0000000000000052#64 = .ok .ssub := by rfl
theorem test_decode_smul : decode 0x0000000000000053#64 = .ok .smul := by rfl
theorem test_decode_sdiv : decode 0x0000000000000054#64 = .ok .sdiv := by rfl

/-- R37, R43: OP is the byte at the lowest address, AMT the next. -/
theorem test_decode_bytes : decodeBytes [0x20#8, 0x11#8, 0#8, 0#8, 0#8, 0#8, 0#8, 0#8] = .ok (.shl 17, []) := by rfl

theorem test_decode_table_word : decodeTableWord 64 0x1120 = some (.shl 17) := by decide

/-- V138: the all-zero word, CMD's reset value. -/
theorem test_reject_zero_word : decode 0#64 = .error (.reservedOpcode 0#8) := by rfl

/-- V139. -/
theorem test_reject_amount : decode 0x0000000000000130#64 = .error .nonzeroAmount := by rfl

/-- V140. -/
theorem test_reject_reserved_field : decode 0x0000000100000030#64 = .error .nonzeroReserved := by rfl

/-- V141. -/
theorem test_reject_reserved_opcodes :
    [0x07#64, 0x21#64, 0x55#64, 0xFF#64].map legal = [false, false, false, false] := by decide

/-- R49: seven bytes are no command. -/
theorem test_reject_truncated : decodeBytes [0x30#8, 0#8, 0#8, 0#8, 0#8, 0#8, 0#8] = .error .truncated := by rfl

/-! ### One step of each command -/

/-- V1. -/
theorem test_zero : run 0x0123456789ABCDEF#64 0#64 0x01#64 = some (0#64, false, false, .none) := by decide

/-- V3. -/
theorem test_copy : run 0#64 0xFFFFFFFFFFFFFFFB#64 0x02#64 = some (0xFFFFFFFFFFFFFFFB#64, false, false, .none) := by
  decide

/-- V8: no sign extension. -/
theorem test_fromu32 : (nextOf (step { st 0#64 0#64 [wr 0x20 0x03#64] with w := 0x80000000#32 })).map State.a =
    some 0x0000000080000000#64 := by decide

/-- V10: a true sign extension (90 C8). -/
theorem test_fromi32_negative :
    (nextOf (step { st 0#64 0#64 [wr 0x20 0x04#64] with w := 0x80000000#32 })).map State.a =
      some 0xFFFFFFFF80000000#64 := by decide

/-- V11. -/
theorem test_fromi32_positive :
    (nextOf (step { st 0#64 0#64 [wr 0x20 0x04#64] with w := 0x7FFFFFFF#32 })).map State.a =
      some 0x000000007FFFFFFF#64 := by decide

/-- V15: truncation, with no flag. -/
theorem test_tou32 : (nextOf (step (st 0x0000000100000005#64 0#64 [wr 0x20 0x05#64]))).map
    (fun t => (t.w, t.a, t.lovf)) = some (0x00000005#32, 0x0000000100000005#64, false) := by decide

/-- V20: byte 0 counts (90 C8). -/
theorem test_toi32 : (nextOf (step (st 0x0000000123456789#64 0#64 [wr 0x20 0x06#64]))).map
    (fun t => (t.w, t.lovf)) = some (0x23456789#32, false) := by decide

/-- V143. -/
theorem test_clrovf : (nextOf (step { st 0#64 0#64 [wr 0x20 0x0F#64] with ovf := true, err := .illegal })).map
    (fun t => (t.ovf, t.lovf, t.err)) = some (false, false, .none) := by decide

/-- V28: MIN is the greater pattern. -/
theorem test_cmp_unsigned : runCmp 0x8000000000000000#64 0x7FFFFFFFFFFFFFFF#64 0x10#64 = some .greater := by decide

/-- V34: byte 1 decides before byte 0. -/
theorem test_cmp_byte_order : runCmp 0x0000000000000100#64 0x00000000000000FF#64 0x10#64 = some .greater := by decide

/-- V28: MIN is the lesser value. -/
theorem test_scmp_signs : runCmp 0x8000000000000000#64 0x7FFFFFFFFFFFFFFF#64 0x11#64 = some .less := by decide

/-- V30: of two negative operands the greater pattern is the greater value (90 C6). -/
theorem test_scmp_negatives : runCmp 0xFFFFFFFFFFFFFFFF#64 0xFFFFFFFFFFFFFFFE#64 0x11#64 = some .greater := by decide

/-- V48. -/
theorem test_shl_36 : run 0x0123456789ABCDEF#64 0#64 0x2420#64 = some (0x9ABCDEF000000000#64, false, false, .none) := by
  decide

/-- V44: 64 bits and no flag. -/
theorem test_shl_64 : run 0xFFFFFFFFFFFFFFFF#64 0#64 0x4020#64 = some (0#64, false, false, .none) := by decide

/-- V54 (90 C1). -/
theorem test_add_wraps : run 0xFFFFFFFFFFFFFFFF#64 1#64 0x30#64 = some (0#64, true, true, .none) := by decide

/-- V58: a sum of exactly 2^64 - 1 fits. -/
theorem test_add_fits : run 0x8000000000000000#64 0x7FFFFFFFFFFFFFFF#64 0x30#64 =
    some (0xFFFFFFFFFFFFFFFF#64, false, false, .none) := by decide

/-- V62, S2 (90 C2). -/
theorem test_sub_wraps : run 5#64 10#64 0x31#64 = some (0xFFFFFFFFFFFFFFFB#64, true, true, .none) := by decide

/-- V68 (90 C3). -/
theorem test_sub_borrows : run 0x10000#64 1#64 0x31#64 = some (0xFFFF#64, false, false, .none) := by decide

/-- V71, S3: no event (90 C4). -/
theorem test_mul_fits : run 100#64 200#64 0x40#64 = some (20000#64, false, false, .none) := by decide

/-- V78: 21! does not fit. -/
theorem test_mul_wraps : run 0x21C3677C82B40000#64 0x15#64 0x40#64 =
    some (0xC5077D36B8C40000#64, true, true, .none) := by decide

/-- V84. -/
theorem test_div : run 0xFFFFFFFFFFFFFFFF#64 2#64 0x41#64 = some (0x7FFFFFFFFFFFFFFF#64, false, false, .none) := by
  decide

/-- V88. -/
theorem test_div_by_zero : run 100#64 0#64 0x41#64 = some (100#64, false, false, .divZero) := by decide

/-- V92. -/
theorem test_divmod : (nextOf (step (st 0xFFFFFFFFFFFFFFFF#64 0x8000000000000001#64 [wr 0x20 0x42#64]))).map
    (fun t => (t.a, t.r, t.err)) = some (1#64, 0x7FFFFFFFFFFFFFFE#64, .none) := by decide

/-- V144: the error is precise, OVF stays set, and STATUS reads 0x645. -/
theorem test_divmod_by_zero : (nextOf (step { st 7#64 0#64 [wr 0x20 0x42#64] with ovf := true })).map
    (fun t => (t.a, t.r, t.status)) = some (7#64, 0x5555#64, 0x0000000000000645#64) := by decide

/-- V99 (90 C5). -/
theorem test_neg : run 5#64 0#64 0x50#64 = some (0xFFFFFFFFFFFFFFFB#64, false, false, .none) := by decide

/-- V102. -/
theorem test_neg_min : run 0x8000000000000000#64 0#64 0x50#64 =
    some (0x8000000000000000#64, true, true, .none) := by decide

/-- V105. -/
theorem test_sadd_event : run 0x8000000000000000#64 0xFFFFFFFFFFFFFFFF#64 0x51#64 =
    some (0x7FFFFFFFFFFFFFFF#64, true, true, .none) := by decide

/-- V103, S6: no event (90 C7). -/
theorem test_sadd_fits : run 0xFFFFFFFFFFFFFFFB#64 3#64 0x51#64 =
    some (0xFFFFFFFFFFFFFFFE#64, false, false, .none) := by decide

/-- V111. -/
theorem test_ssub_event : run 0#64 0x8000000000000000#64 0x52#64 =
    some (0x8000000000000000#64, true, true, .none) := by decide

/-- V112. -/
theorem test_ssub_fits : run 0xFFFFFFFFFFFFFFFF#64 0x7FFFFFFFFFFFFFFF#64 0x52#64 =
    some (0x8000000000000000#64, false, false, .none) := by decide

/-- V118: +2^63 does not fit (90 C7). -/
theorem test_smul_event : run 0x0000000100000000#64 0x0000000080000000#64 0x53#64 =
    some (0x8000000000000000#64, true, true, .none) := by decide

/-- V119: -2^63 fits. -/
theorem test_smul_fits : run 0xFFFFFFFF00000000#64 0x0000000080000000#64 0x53#64 =
    some (0x8000000000000000#64, false, false, .none) := by decide

/-- V125: toward zero. -/
theorem test_sdiv_truncates : run 0xFFFFFFFFFFFFFFF9#64 2#64 0x54#64 =
    some (0xFFFFFFFFFFFFFFFD#64, false, false, .none) := by decide

/-- V124: MIN by -1. -/
theorem test_sdiv_min : run 0x8000000000000000#64 0xFFFFFFFFFFFFFFFF#64 0x54#64 =
    some (0x8000000000000000#64, true, true, .none) := by decide

/-! ### The register window, reset and the port -/

/-- V133, V134: STATUS and CMD right after reset. -/
theorem test_reset_reads : repliesOf 3 { st 1#64 2#64 [.reset, rd 0x28, rd 0x20] with ovf := true, cmp := .less } =
    some [.data 0x0000000000000640#64, .data 0#64] := by decide

/-- V138: STATUS after an illegal word from reset. -/
theorem test_status_after_illegal : repliesOf 2 { State.reset with port := [wr 0x20 0#64, rd 0x28] } =
    some [.done, .data 0x0000000000000648#64] := by decide

/-- V150, V151: STATUS after SCMP and after CMP. -/
theorem test_status_after_compares :
    repliesOf 4 (st 0xFFFFFFFFFFFFFFFE#64 3#64 [wr 0x20 0x11#64, rd 0x28, wr 0x20 0x10#64, rd 0x28]) =
      some [.done, .data 0x0000000000000530#64, .done, .data 0x0000000000000290#64] := by decide

/-- V147: the reserved offsets. -/
theorem test_reserved_offsets : repliesOf 2 (st 1#64 2#64 [rd 0x30, rd 0x38]) = some [.data 0#64, .data 0#64] := by
  decide

/-- V148: a write to STATUS is ignored. -/
theorem test_status_write : repliesOf 2 (st 1#64 2#64 [wr 0x28 0xFFFF#64, rd 0x28]) =
    some [.done, .data 0x0000000000000640#64] := by decide

/-- V149: W keeps 32 bits. -/
theorem test_w_write : repliesOf 2 (st 1#64 2#64 [wr 0x18 0xDEADBEEF00000007#64, rd 0x18]) =
    some [.done, .data 0x0000000000000007#64] := by decide

/-- R35: the offsets of A, B, R, W and CMD. -/
theorem test_register_reads : repliesOf 5 (st 1#64 2#64 [rd 0x00, rd 0x08, rd 0x10, rd 0x18, rd 0x20]) =
    some [.data 1#64, .data 2#64, .data 0x5555#64, .data 0x77#64, .data 0#64] := by decide

/-- V145: a 32-bit read. -/
theorem test_bus_error_width :
    faultOf (step (st 1#64 2#64 [.access { host := 1, offset := 0x00, bytes := 4, kind := .read }])) =
      some (.busError 0x00 32) := by decide

/-- V145: a misaligned read. -/
theorem test_bus_error_offset : faultOf (step (st 1#64 2#64 [rd 0x04])) = some (.busError 0x04 64) := by decide

/-- V146: a 16-bit write to CMD. -/
theorem test_bus_error_command :
    faultOf (step (st 1#64 2#64 [.access { host := 1, offset := 0x20, bytes := 2, kind := .write 0x30#64 }])) =
      some (.busError 0x20 16) := by decide

/-- R38: an access that crosses the end of the window, and the last that does not. -/
theorem test_window_end :
    faultOf (step (st 1#64 2#64 [rd 0x3C])) = some (.busError 0x3C 64) ∧
    (nextOf (step (st 1#64 2#64 [rd 0x38]))).isSome = true ∧
    faultOf (step (st 1#64 2#64 [rd 0x40])) = some (.outsideWindow 0x40 64) := by decide

/-- The step after `withFetchWord` runs the command first. -/
theorem test_fetch_word : (nextOf (step (State.reset.withFetchWord 64 0x1120))).map (fun t => (t.cmd, t.err)) =
    some (0x1120#64, .none) := by decide

/-! ### Registers that nothing has written -/

/-- V135. -/
theorem test_unwritten_read : faultOf (checkedStep { State.reset with port := [rd 0x00] }) =
    some (.unwrittenRead .a) := by decide

/-- V137: before DivideByZero. -/
theorem test_unwritten_div :
    faultOf (checkedRun 2 { State.reset with port := [wr 0x08 0#64, wr 0x20 0x41#64] }) =
      some (.unwrittenRead .a) := by decide

/-- V139: decode comes first. -/
theorem test_unwritten_illegal :
    (nextOf (checkedStep { State.reset with port := [wr 0x20 0x130#64] })).map (fun t => (t.cmd, t.err)) =
      some (0x130#64, .illegal) := by decide

/-- V2: ZERO reads nothing, and A counts as written after it. -/
theorem test_unwritten_zero :
    (nextOf (checkedRun 2 { State.reset with port := [wr 0x20 0x01#64, rd 0x00] })).map
      (fun t => t.replies.map Reply.kind) = some [.done, .data 0#64] := by decide

/-! ### Programs of the notation -/

/-- S4 in the notation of R50, with its `li.u32` (R51). -/
theorem test_scenario_4 : (nextOf (core.run 3 (State.reset.load 1
    ((AsmPseudo.liU32 1).expand ++ [.command (.shl 17)])))).map State.a = some 131072#64 := by decide

/-- P2: its encoding. -/
theorem test_encode_program : encodeProgram
    [.command .clrovf, .wr .w 5, .command .fromu32, .wr .b 10, .command .sub, .rd .status, .wr .cmd 0x130] =
      [0x0F#64, 0x03#64, 0x31#64, 0x130#64] := by decide

/-! ### The reference algorithms, on the pairs that show the defects of their literal text -/

/-- V54 and R66. -/
theorem test_ref_add : refAdd Word.MAX 1#64 = (0#64, true) := by decide

/-- V62, V68 and R67. -/
theorem test_ref_sub : refSub 5#64 10#64 = (0xFFFFFFFFFFFFFFFB#64, true) ∧ refSub 0x10000#64 1#64 = (0xFFFF#64, false) := by
  decide

/-- V47 and R63. -/
theorem test_ref_shift : refShiftLeft 0x0123456789ABCDEF#64 4 = 0x123456789ABCDEF0#64 := by decide

/-- V103, V112 and R80: mixed signs, and two negative operands. -/
theorem test_ref_signed : refSadd 0xFFFFFFFFFFFFFFFB#64 3#64 = 0xFFFFFFFFFFFFFFFE#64 ∧
    refSsub 0xFFFFFFFFFFFFFFFF#64 0x7FFFFFFFFFFFFFFF#64 = 0x8000000000000000#64 := by decide

/-! ### Witnesses: concrete data that meet the hypotheses of each statement -/

/-- The access of a 64-bit write. -/
def wrAcc (offset : Int) (v : Word) : Access := { host := 1, offset := offset, bytes := 8, kind := .write v }

/-- The access of a 64-bit read. -/
def rdAcc (offset : Int) : Access := { host := 1, offset := offset, bytes := 8, kind := .read }

/-- The state whose port holds one write of `word` to CMD. -/
def cmdState (a b word : Word) : State := st a b [.access (wrAcc 0x20 word)]

/-- The hypotheses of the statements about a write of `word` to CMD. -/
theorem witness_command_write (a b word : Word) :
    (cmdState a b word).port = .access (wrAcc 0x20 word) :: [] ∧ (wrAcc 0x20 word).offset = 0x20 ∧
      (wrAcc 0x20 word).bytes = 8 ∧ (wrAcc 0x20 word).kind = .write word := by
  exact ⟨rfl, rfl, rfl, rfl⟩

/-- Both ends of SHL's range. -/
theorem witness_DecodeOfEncode : (Instr.shl 0).WellFormed ∧ (Instr.shl 255).WellFormed ∧ Instr.sdiv.WellFormed := by
  decide

theorem witness_OpcodeMap : decode 0x0000000000000020#64 = .ok (.shl 0) ∧ decode 0x000000000000FF20#64 = .ok (.shl 255) ∧
    decode 0x0000000000000030#64 = .ok .add := by exact ⟨rfl, rfl, rfl⟩

/-- SHL's last word is legal; the word after the map's last opcode, and the first with a bit of RSV, are not. -/
theorem witness_LegalWords : legal 0x000000000000FF20#64 = true ∧ legal 0x0000000000000055#64 = false ∧
    legal 0x0000000000010020#64 = false := by decide

theorem witness_LittleEndianBytes : decode 0x000000000000FF20#64 = .ok (.shl 255) := by rfl

/-- A word that encodes a command, with the state it is run on, and one that encodes none. -/
theorem witness_StepRunsDecodedCommand :
    (cmdState 5#64 3#64 0x30#64).port = .access (wrAcc 0x20 0x30#64) :: [] ∧ decode 0x30#64 = .ok .add ∧
    (∃ t, exec .add { cmdState 5#64 3#64 0x30#64 with port := [], cmd := 0x30#64, err := .none, lovf := false } =
      .next t ∧ t.a = 8#64) ∧
    (cmdState 5#64 3#64 0x07#64).port = .access (wrAcc 0x20 0x07#64) :: [] ∧
    decode 0x07#64 = .error (.reservedOpcode 0x07#8) := by
  exact ⟨rfl, rfl, ⟨_, rfl, by decide⟩, rfl, rfl⟩

theorem witness_EveryCommandWriteCompletes :
    (cmdState 5#64 0#64 0x41#64).port = .access (wrAcc 0x20 0x41#64) :: [] ∧ (wrAcc 0x20 0x41#64).offset = 0x20 ∧
      (wrAcc 0x20 0x41#64).bytes = 8 ∧ (wrAcc 0x20 0x41#64).kind = .write 0x41#64 := by
  exact witness_command_write 5#64 0#64 0x41#64

/-- A read and a write at each of the window's eight offsets; no two of them fall under one clause with two outcomes. -/
theorem witness_RegisterMap : ∀ off ∈ ([0x00, 0x08, 0x10, 0x18, 0x20, 0x28, 0x30, 0x38] : List Int),
    (rdAcc off).bytes = 8 ∧ (rdAcc off).kind = .read ∧ (nextOf (step (st 1#64 2#64 [rd off]))).isSome = true ∧
    (wrAcc off 9#64).bytes = 8 ∧ (wrAcc off 9#64).kind = .write 9#64 ∧
      (nextOf (step (st 1#64 2#64 [wr off 9#64]))).isSome = true := by decide

/-- The first and the last byte of the window, an access that begins before it, and an admitted access. -/
theorem witness_OnlyWholeRegistersAdmitted :
    (∀ acc ∈ [rdAcc 0x38, { rdAcc 0x00 with bytes := 1 }, { rdAcc 0x3F with bytes := 1 }, rdAcc 0x3C, rdAcc (-4)],
      0 < acc.bytes ∧ acc.offset < 64 ∧ 0 < acc.offset + (acc.bytes : Int)) ∧
    ((rdAcc 0x38).bytes = 8 ∧ (rdAcc 0x38).offset % 8 = 0) ∧ ¬ (rdAcc (-4)).offset % 8 = 0 := by decide

theorem witness_PortServicedInOrder :
    step (st 1#64 2#64 []) = .next (st 1#64 2#64 []) ∧
    (∃ t, step (st 1#64 2#64 [rd 0x00, .reset]) = .next t ∧ t.port = [.reset]) ∧
    (∃ t, step (st 1#64 2#64 [wr 0x00 7#64]) = .next t ∧ t.a = 7#64) ∧
    (∃ t, step (st 1#64 2#64 [.reset]) = .next t ∧ t.replies = []) := by
  exact ⟨rfl, ⟨_, rfl, rfl⟩, ⟨_, rfl, rfl⟩, ⟨_, rfl, rfl⟩⟩

/-- The four registers that a read gets back what a write left. -/
theorem witness_ReadReturnsLastWrite : ∀ off ∈ ([0x00, 0x08, 0x10, 0x18] : List Int),
    (st 1#64 2#64 [wr off 9#64, rd off]).port = .access (wrAcc off 9#64) :: .access (rdAcc off) :: [] ∧
      (off = 0x00 ∨ off = 0x08 ∨ off = 0x10 ∨ off = 0x18) := by decide

theorem witness_WritesRepeated :
    (st 1#64 2#64 [wr 0x20 0x30#64, wr 0x20 0x30#64]).port =
      .access (wrAcc 0x20 0x30#64) :: .access (wrAcc 0x20 0x30#64) :: [] ∧
    (wrAcc 0x20 0x30#64).offset = 0x20 ∧ (wrAcc 0x20 0x30#64).kind = .write 0x0000000000000030#64 ∧
    (st 1#64 2#64 [wr 0x18 9#64, wr 0x18 9#64]).port =
      .access (wrAcc 0x18 9#64) :: .access (wrAcc 0x18 9#64) :: [] ∧ (wrAcc 0x18 9#64).bytes = 8 := by decide

/-- Offsets at both ends of the window, and addresses just before and just after it. -/
theorem witness_WindowAtBase : (0 < 64 ∧ 0 < 8) ∧ (63 < 64 ∧ 0 < 1) ∧
    (Config.bignumBase + 64 + 8 ≤ Config.bignumBase ∨ Config.bignumBase + 64 ≤ Config.bignumBase + 64) ∧
    (Config.bignumBase + 0 ≤ Config.bignumBase ∨ Config.bignumBase + 64 ≤ Config.bignumBase) := by
  exact ⟨by decide, by decide, .inr (Nat.le_refl _), .inl (Nat.le_refl _)⟩

theorem witness_PortStaysInWindow : (st 1#64 2#64 [rd 0x38]).PortInWindow ∧
    ∃ t, step (st 1#64 2#64 [rd 0x38]) = .next t ∧ t.port = [] := by
  refine ⟨fun acc h => ?_, ⟨_, rfl, rfl⟩⟩
  cases List.mem_singleton.1 h
  decide

theorem witness_ResetState : (st 1#64 2#64 [.reset, rd 0x28]).port = .reset :: [rd 0x28] := by decide

theorem witness_ResetIsTheStartState : (st 1#64 2#64 [.reset, rd 0x28]).port = .reset :: [rd 0x28] := by decide

/-- CLROVF clears OVF, reset clears it, ADD sets it, and a command answers next. -/
theorem witness_OvfIsSticky :
    (∃ t, step { cmdState 1#64 2#64 0x0F#64 with ovf := true } = .next t ∧ t.ovf = false) ∧
    (∃ t, step { st 1#64 2#64 [.reset] with ovf := true } = .next t ∧ t.ovf = false) ∧
    (∃ t, step (cmdState Word.MAX 2#64 0x30#64) = .next t ∧ (cmdState Word.MAX 2#64 0x30#64).ovf = false ∧
      t.ovf = true) ∧
    (∃ t, exec .add (st Word.MAX 2#64 []) = .next t ∧ (st Word.MAX 2#64 []).lovf = false ∧ t.lovf = true) := by
  exact ⟨⟨_, rfl, rfl⟩, ⟨_, rfl, rfl⟩, ⟨_, rfl, rfl, by decide⟩, ⟨_, rfl, rfl, by decide⟩⟩

/-- A write to CMD after which LOVF is 1, and one after which it is 0. -/
theorem witness_LovfIffResultOutOfRange :
    (∃ t, step (cmdState Word.MIN Word.MAX 0x54#64) = .next t ∧ t.lovf = true) ∧
    (∃ t, step (cmdState 1#64 2#64 0x54#64) = .next t ∧ t.lovf = false) := by
  exact ⟨⟨_, rfl, by decide⟩, ⟨_, rfl, by decide⟩⟩

/-- Each of the three codes. -/
theorem witness_ErrReportsTheLastCommand :
    (∃ t, step (cmdState 1#64 2#64 0x41#64) = .next t ∧ t.err.code = 0b00#2) ∧
    (∃ t, step (cmdState 1#64 0#64 0x41#64) = .next t ∧ t.err.code = 0b01#2) ∧
    (∃ t, step (cmdState 1#64 2#64 0x07#64) = .next t ∧ t.err.code = 0b10#2) := by
  exact ⟨⟨_, rfl, by decide⟩, ⟨_, rfl, by decide⟩, ⟨_, rfl, by decide⟩⟩

/-- Both errors. -/
theorem witness_ErrorsArePrecise :
    (∃ t, step (cmdState 1#64 0#64 0x42#64) = .next t ∧ t.err ≠ .none) ∧
    (∃ t, step (cmdState 1#64 2#64 0x130#64) = .next t ∧ t.err ≠ .none) := by
  exact ⟨⟨_, rfl, by decide⟩, ⟨_, rfl, by decide⟩⟩

/-- CMP, SCMP and reset, each changing CMP. -/
theorem witness_OnlyComparesWriteCmp :
    (∃ t, step (cmdState 1#64 2#64 0x10#64) = .next t ∧ t.cmp ≠ (cmdState 1#64 2#64 0x10#64).cmp) ∧
    (∃ t, step (cmdState Word.MIN 2#64 0x11#64) = .next t ∧ t.cmp ≠ (cmdState Word.MIN 2#64 0x11#64).cmp) ∧
    (∃ t, step { st 1#64 2#64 [.reset] with cmp := .less } = .next t ∧ t.cmp ≠ .less) := by
  exact ⟨⟨_, rfl, by decide⟩, ⟨_, rfl, by decide⟩, ⟨_, rfl, by decide⟩⟩

/-- A command of each clause. -/
theorem witness_CommandFrame : ∀ i ∈ [Instr.divmod, .tou32, .clrovf, .cmp, .div, .shl 255, .sdiv],
    (nextOf (exec i (st 5#64 0#64 []))).isSome = true := by decide

/-- Two states that agree on A and B alone. -/
theorem witness_CommandReadsOnlyItsReadSet :
    (∀ reg ∈ readSet .add, (st 5#64 3#64 []).x reg = { st 5#64 3#64 [] with r := 1#64, w := 2#32 }.x reg) ∧
    (∃ t, exec .add (st 5#64 3#64 []) = .next t ∧ t.err = .none) ∧
    (∃ t', exec .add { st 5#64 3#64 [] with r := 1#64, w := 2#32 } = .next t' ∧ t'.err = .none) := by
  exact ⟨by decide, ⟨_, rfl, by decide⟩, ⟨_, rfl, by decide⟩⟩

/-- A state after an error, and one after an overflow, in which STATUS describes CMD, with a step from each. -/
theorem witness_StatusDescribesCmd :
    StatusInv { cmdState 1#64 2#64 0x30#64 with cmd := 0x41#64, err := .divZero } ∧
    StatusInv { st 1#64 2#64 [wr 0x00 3#64] with cmd := 0x30#64, ovf := true, lovf := true } ∧
    (∃ t, step { cmdState 1#64 2#64 0x30#64 with cmd := 0x41#64, err := .divZero } = .next t ∧ t.a = 3#64) ∧
    (∃ t, step { st 1#64 2#64 [wr 0x00 3#64] with cmd := 0x30#64, ovf := true, lovf := true } = .next t ∧
      t.a = 3#64) := by
  refine ⟨⟨?_, ?_, ?_, ?_, ?_, ?_⟩, ⟨?_, ?_, ?_, ?_, ?_, ?_⟩, ⟨_, rfl, by decide⟩, ⟨_, rfl, by decide⟩⟩ <;> decide

/-- The reset state, in which nothing is written, with a read of A and of W, an ADD with A unwritten, an ADD with only
B unwritten, a FROMU32, and a word that encodes no command. -/
theorem witness_UnwrittenReadsFault :
    (∀ e ∈ [rd 0x00, rd 0x18, wr 0x20 0x30#64, wr 0x20 0x02#64, wr 0x20 0x03#64],
      (faultOf (checkedStep { State.reset with port := [e] })).isSome = true) ∧
    faultOf (checkedStep { State.reset with
      written := { Written.none with a := true }, port := [wr 0x20 0x30#64] }) = some (.unwrittenRead .b) ∧
    decode 0x30#64 = .ok .add ∧ State.reset.written.a = false ∧ legal 0x130#64 = false ∧
    (nextOf (checkedStep { State.reset with port := [wr 0x20 0x130#64] })).isSome = true := by
  exact ⟨by decide, by decide, rfl, rfl, by decide, by decide⟩

/-- A checked step that goes on though R and W are unwritten, one that faults as the step does, and one that raises
UnwrittenRead where the step goes on. -/
theorem witness_CheckedStepIsStep :
    (∃ t, checkedStep { cmdState 1#64 2#64 0x30#64 with written := { Written.none with a := true, b := true } } =
      .next t ∧ t.a = 3#64) ∧
    checkedStep (st 1#64 2#64 [rd 0x04]) = .fault (.machine (.busError 0x04 64)) ∧
    checkedStep { State.reset with port := [rd 0x10] } = .fault (.unwrittenRead .r) ∧
    (∃ t, step { State.reset with port := [rd 0x10] } = .next t ∧ t.port = []) ∧
    (∀ reg, checkedStep (st 1#64 2#64 []) ≠ .fault (.unwrittenRead reg)) := by
  exact ⟨⟨_, rfl, by decide⟩, rfl, rfl, ⟨_, rfl, rfl⟩, fun _ h => by cases h⟩

/-- From reset, where nothing is written: no event, reset, host reads of CMD, STATUS and the reserved offsets, host
writes of every register, a word that encodes no command (V139), ZERO (V2) and CLROVF. Then one command of each other
shape, with its operands alone written. -/
theorem witness_CheckedStepGoesOn :
    (∀ port ∈ [[], [PortEvent.reset], [rd 0x20], [rd 0x28], [rd 0x30], [rd 0x38], [wr 0x00 9#64], [wr 0x08 9#64],
        [wr 0x10 9#64], [wr 0x18 9#64], [wr 0x28 9#64], [wr 0x30 9#64], [wr 0x38 9#64], [wr 0x20 0x130#64],
        [wr 0x20 0x01#64], [wr 0x20 0x0F#64]],
      (nextOf (checkedStep { State.reset with port := port })).isSome = true) ∧
    (∀ p ∈ [({ Written.none with a := true }, rd 0x00), ({ Written.none with b := true }, rd 0x08),
        ({ Written.none with r := true }, rd 0x10), ({ Written.none with w := true }, rd 0x18),
        ({ Written.none with b := true }, wr 0x20 0x02#64), ({ Written.none with w := true }, wr 0x20 0x03#64),
        ({ Written.none with a := true }, wr 0x20 0x05#64), ({ Written.none with a := true }, wr 0x20 0xFF20#64),
        ({ Written.none with a := true, b := true }, wr 0x20 0x42#64)],
      (nextOf (checkedStep { State.reset with written := p.1, port := [p.2] })).isSome = true) ∧
    decode 0x01#64 = .ok .zero ∧ decode 0x02#64 = .ok .copy ∧ decode 0x03#64 = .ok .fromu32 ∧
    decode 0x05#64 = .ok .tou32 ∧ decode 0xFF20#64 = .ok (.shl 255) ∧ decode 0x42#64 = .ok .divmod := by
  exact ⟨by decide, by decide, rfl, rfl, rfl, rfl, rfl, rfl⟩

/-- Two reset states with different contents, a run of them that goes on and one that faults. -/
theorem witness_UnwrittenValuesDecideNothing :
    AgreeOnWritten { State.reset with port := [wr 0x00 4#64, wr 0x20 0x30#64] }
      { State.reset with a := 5#64, b := 6#64, r := 7#64, w := 8#32, port := [wr 0x00 4#64, wr 0x20 0x30#64] } ∧
    (∃ t, checkedRun 1 { State.reset with port := [wr 0x00 4#64, wr 0x20 0x30#64] } = .next t ∧ t.a = 4#64) ∧
    checkedRun 2 { State.reset with port := [wr 0x00 4#64, wr 0x20 0x30#64] } = .fault (.unwrittenRead .b) := by
  refine ⟨⟨rfl, ?_, rfl, rfl, rfl, rfl, rfl, rfl, rfl⟩, ⟨_, rfl, rfl⟩, rfl⟩
  intro reg h
  cases reg <;> cases h

/-- A value of A that TOI32 keeps, at each end of its range. -/
theorem witness_ToConversions :
    (-2 ^ 31 ≤ (st 0xFFFFFFFF80000000#64 0#64 []).a.toInt ∧ (st 0xFFFFFFFF80000000#64 0#64 []).a.toInt ≤ 2 ^ 31 - 1) ∧
    (-2 ^ 31 ≤ (st 0x000000007FFFFFFF#64 0#64 []).a.toInt ∧
      (st 0x000000007FFFFFFF#64 0#64 []).a.toInt ≤ 2 ^ 31 - 1) := by decide

theorem witness_ClrovfClearsOvf :
    ∃ t, exec .clrovf { st 1#64 2#64 [] with ovf := true } = .next t ∧ t.ovf = false := by
  exact ⟨_, rfl, rfl⟩

/-- Operands with one sign bit, with different ones, and equal ones. -/
theorem witness_ComparatorLaws :
    (st 1#64 2#64 []).a.getLsbD 63 = (st 1#64 2#64 []).b.getLsbD 63 ∧
    (st Word.MIN 2#64 []).a.getLsbD 63 ≠ (st Word.MIN 2#64 []).b.getLsbD 63 ∧
    (st 2#64 2#64 []).a = (st 2#64 2#64 []).b := by decide

/-- The ends of the amounts' range, and the first amount that gives ZERO. -/
theorem witness_ShlShiftsLeft : 0 < 256 ∧ 64 < 256 ∧ 64 ≤ 64 ∧ 255 < 256 := by decide

theorem witness_AddWraps : ∃ t, exec .add (st 5#64 3#64 []) = .next t ∧ t.lovf = false := by
  exact ⟨_, rfl, by decide⟩

theorem witness_DivQuotient : (st 7#64 1#64 []).b ≠ 0#64 ∧ (st 7#64 0#64 []).b = 0#64 := by decide

theorem witness_DivmodQuotientRemainder : (st 7#64 1#64 []).b ≠ 0#64 ∧ (st 7#64 0#64 []).b = 0#64 := by decide

/-- A zero divisor, with a command that divides and one that does not. -/
theorem witness_ZeroDivisorRaises : (st 7#64 0#64 []).b = 0#64 ∧ decode 0x54#64 = .ok .sdiv ∧
    decode 0x53#64 = .ok .smul ∧ Instr.smul ≠ .div ∧ Instr.smul ≠ .divmod ∧ Instr.smul ≠ .sdiv := by
  exact ⟨rfl, rfl, rfl, by decide, by decide, by decide⟩

theorem witness_NegNegates : ∃ t, exec .neg (st 5#64 0#64 []) = .next t ∧ t.a = 0xFFFFFFFFFFFFFFFB#64 := by
  exact ⟨_, rfl, by decide⟩

/-- The sum that ADD writes too. -/
theorem witness_SaddResult : ∃ t, exec .add (st 5#64 3#64 []) = .next t ∧ t.a = 8#64 := by exact ⟨_, rfl, by decide⟩

/-- The difference that SUB writes too. -/
theorem witness_SsubResult : ∃ t, exec .sub (st 5#64 3#64 []) = .next t ∧ t.a = 2#64 := by exact ⟨_, rfl, by decide⟩

/-- The product that MUL writes too. -/
theorem witness_SmulResult : ∃ t, exec .mul (st 5#64 3#64 []) = .next t ∧ t.a = 15#64 := by exact ⟨_, rfl, by decide⟩

theorem witness_SdivResult : (st 7#64 1#64 []).b ≠ 0#64 ∧ (st 7#64 0#64 []).b = 0#64 := by decide

/-- A true result of each of the five signed commands, MIN by -1 among them. -/
theorem witness_SignedOverflowRule :
    trueResult .sdiv Word.MIN Word.MAX = some (true, 2 ^ 63) ∧ trueResult .neg 5#64 0#64 = some (true, -5) ∧
    trueResult .sadd 5#64 3#64 = some (true, 8) ∧ trueResult .ssub 5#64 3#64 = some (true, 2) ∧
    trueResult .smul 5#64 3#64 = some (true, 15) := by decide

theorem witness_ReferenceShifterAgrees : 255 < 256 ∧ ∃ t, exec (.shl 255) (st 5#64 3#64 []) = .next t ∧ t.a = 0#64 := by
  exact ⟨by decide, _, rfl, by decide⟩

theorem witness_ReferenceAdderAgrees : ∃ t, exec .add (st Word.MAX 1#64 []) = .next t ∧ t.a = 0#64 := by
  exact ⟨_, rfl, by decide⟩

theorem witness_ReferenceSubtractorAgrees : ∃ t, exec .sub (st 0#64 1#64 []) = .next t ∧ t.a = Word.MAX := by
  exact ⟨_, rfl, by decide⟩

theorem witness_ReferenceMultiplierAgrees : ∃ t, exec .mul (st Word.MAX Word.MAX []) = .next t ∧ t.a = 1#64 := by
  exact ⟨_, rfl, by decide⟩

theorem witness_ReferenceDividerAgrees : (st 7#64 2#64 []).b ≠ 0#64 ∧
    ∃ t, exec .divmod (st 7#64 2#64 []) = .next t ∧ t.a = 3#64 ∧ t.r = 1#64 := by
  exact ⟨by decide, _, rfl, by decide, by decide⟩

theorem witness_SignDispatchAgrees : (st 7#64 2#64 []).b ≠ 0#64 ∧
    (∃ t, exec .sadd (st 7#64 2#64 []) = .next t ∧ t.a = 9#64) ∧
    (∃ t, exec .ssub (st 7#64 2#64 []) = .next t ∧ t.a = 5#64) ∧
    (∃ t, exec .sdiv (st 7#64 2#64 []) = .next t ∧ t.a = 3#64) ∧
    (∃ t, exec .smul (st 7#64 2#64 []) = .next t ∧ t.a = 14#64) := by
  exact ⟨by decide, ⟨_, rfl, by decide⟩, ⟨_, rfl, by decide⟩, ⟨_, rfl, by decide⟩, ⟨_, rfl, by decide⟩⟩

/-- An idle port, and the ends of each pseudo-instruction's range. -/
theorem witness_PseudoInstructions : (st 1#64 2#64 []).port = [] ∧
    (AsmPseudo.liU32 0).wf = true ∧ (AsmPseudo.liU32 (2 ^ 32 - 1)).wf = true ∧
    (AsmPseudo.liI32 (-2 ^ 31)).wf = true ∧ (AsmPseudo.liI32 (2 ^ 31 - 1)).wf = true ∧
    (AsmPseudo.li (-2 ^ 63)).wf = true ∧ (AsmPseudo.li (2 ^ 64 - 1)).wf = true := by decide

theorem witness_SharedBlockRaces : (1#64 : Word) ∈ [(1#64 : Word), 2#64] ∧ (2#64 : Word) ∈ [(1#64 : Word), 2#64] := by
  decide

end Sys2Proof.Tests
end

section
/-! PROOFS, the decoder. A word encodes a command exactly when it is that command's own word (spec/30_encoding.md R43 to
R48). -/

namespace Sys2Proof

/-- Each constructor's law of Laws/PerInstr, for an arbitrary command. -/
theorem encodedFields (i : Instr) : Laws.EncodedFields.Statement i := by
  cases i with
  | shl n => exact Laws.EncodedFields.shl n
  | _ => exact Laws.EncodedFields.of_map (by decide)

/-- AMT is 0 in the word of every command but SHL (R43). -/
theorem Instr.amt_eq_zero_or_opcode_eq_opShl (i : Instr) : i.amt = 0#8 ∨ i.opcode = opShl := by
  cases i with
  | shl n => exact .inr rfl
  | _ => exact .inl rfl

theorem decode_encode {i : Instr} (h : i.WellFormed) : decode (encode i) = .ok i := by
  obtain ⟨-, -, hrsv, hmap⟩ := encodedFields i h
  refine (decode_eq_ok_iff _ _).2 ⟨hmap, hrsv, ?_⟩
  rw [amtField_encode, opField_encode]
  exact i.amt_eq_zero_or_opcode_eq_opShl

/-- What the opcode map's answer says of the opcode and of the amount. -/
theorem instrOfOpcode_eq_some {op amt : Byte} {i : Instr} (h : instrOfOpcode op amt = some i) :
    i.WellFormed ∧ i.opcode = op ∧ (i.amt = amt ∨ i.amt = 0#8 ∧ op ≠ opShl) := by
  have hop : op = BitVec.ofNat 8 op.toNat := by simp
  unfold instrOfOpcode at h
  split at h
  case h_10 hk =>
    cases h
    rw [hk] at hop
    subst hop
    exact ⟨decide_eq_true amt.isLt, rfl, .inl (by simp [Instr.amt])⟩
  case h_21 => cases h
  all_goals
    rename_i hk
    cases h
    rw [hk] at hop
    subst hop
    exact ⟨rfl, rfl, .inr ⟨rfl, by decide⟩⟩

/-- R46, R47: the one word of a command. -/
theorem decode_eq_ok_iff_encode {word : Word} {i : Instr} : decode word = .ok i ↔ i.WellFormed ∧ word = encode i := by
  constructor
  · intro h
    obtain ⟨hmap, hrsv, hamt⟩ := (decode_eq_ok_iff word i).1 h
    obtain ⟨hwf, hop, hi⟩ := instrOfOpcode_eq_some hmap
    have hamt : i.amt = amtField word := by
      rcases hi with hi | ⟨hi, hne⟩
      · exact hi
      · rw [hi, hamt.resolve_right hne]
    refine ⟨hwf, BitVec.eq_of_toNat_eq ?_⟩
    rw [word_eq_fields word, encode_toNat, hop, hamt, hrsv]
    rfl
  · rintro ⟨hwf, rfl⟩
    exact decode_encode hwf

/-- The opcode map lists the opcodes that it gives a command. -/
theorem mem_opcodes_iff (op amt : Byte) : op ∈ opcodes ↔ ∃ i, instrOfOpcode op amt = some i := by
  constructor
  · intro h
    unfold opcodes at h
    fin_cases h <;> exact ⟨_, rfl⟩
  · rintro ⟨i, h⟩
    obtain ⟨hwf, hop, -⟩ := instrOfOpcode_eq_some h
    rw [← hop, ← opField_encode]
    exact (encodedFields i hwf).1

/-- R46: the legal words are those that encode a command. -/
theorem legal_eq_true_iff {word : Word} : legal word = true ↔ ∃ i, decode word = .ok i := by
  simp only [legal, Bool.and_eq_true, List.contains_iff_mem, mem_opcodes_iff _ (amtField word), beq_iff_eq,
    Bool.or_eq_true, decode_eq_ok_iff]
  constructor
  · rintro ⟨⟨⟨i, hi⟩, hrsv⟩, hamt⟩
    exact ⟨i, hi, hrsv, hamt⟩
  · rintro ⟨i, hi, hrsv, hamt⟩
    exact ⟨⟨⟨i, hi⟩, hrsv⟩, hamt⟩

theorem legal_of_decode {word : Word} {i : Instr} (h : decode word = .ok i) : legal word = true :=
  legal_eq_true_iff.2 ⟨i, h⟩

theorem legal_eq_false_iff {word : Word} : legal word = false ↔ ∃ e, decode word = .error e := by
  rw [← Bool.not_eq_true, legal_eq_true_iff]
  rcases decode word with e | i <;> simp

end Sys2Proof
end

section
/-! PROOFS, the effect of a command. Every command reads its operands, works out one of six effects from them, and
applies it to the state (spec/10_state.md R20). -/

namespace Sys2Proof.Machine

/-- What a command does to the state once it has read its operands. -/
inductive Effect where
  /-- A register takes a value. -/
  | write (reg : DataReg) (v : Word)
  /-- A takes a value, with an overflow event or without one (R22, R23). -/
  | arith (v : Word) (event : Bool)
  /-- R72: A takes the quotient, R the remainder. -/
  | quotRem (q r : Word)
  /-- R58. -/
  | clearOvf
  /-- R25: the comparator's result. -/
  | compare (c : CmpResult)
  /-- R70, R82: the command found a zero divisor. -/
  | divZero

def Effect.apply (s : State) : Effect → State
  | .write reg v => s.setX reg v
  | .arith v event => (s.setX .a v).ovfEvent event
  | .quotRem q r => (s.setX .a q).setX .r r
  | .clearOvf => s.clearOvf
  | .compare c => s.setCmp c
  | .divZero => s.raise .divZero

/-- The data registers that an effect writes. -/
def Effect.writes : Effect → List DataReg
  | .write reg _ => [reg]
  | .arith _ _ => [.a]
  | .quotRem _ _ => [.a, .r]
  | .clearOvf | .compare _ | .divZero => []

/-- Is the effect an overflow event? -/
def Effect.event : Effect → Bool
  | .arith _ event => event
  | .write _ _ | .quotRem _ _ | .clearOvf | .compare _ | .divZero => false

theorem State.setX_frame (s : State) {reg reg' : DataReg} (v : Word) (h : reg ≠ reg') :
    (s.setX reg' v).x reg = s.x reg ∧ (s.setX reg' v).written.has reg = s.written.has reg :=
  ⟨s.x_setX_ne v h, by simp [Written.has_mark, h]⟩

/-- What a write leaves in its register does not depend on the state. -/
theorem State.x_setX_congr (s s' : State) (reg : DataReg) (v : Word) :
    (s.setX reg v).x reg = (s'.setX reg v).x reg := by
  cases reg <;> rfl

/-! ### What an effect changes, and what it leaves unchanged -/

namespace Effect

variable (s : State) (e : Effect)

@[simp] theorem apply_cmd : (e.apply s).cmd = s.cmd := by
  cases e with
  | write reg v => exact s.setX_cmd reg v
  | _ => rfl

@[simp] theorem apply_port : (e.apply s).port = s.port := by
  cases e with
  | write reg v => exact s.setX_port reg v
  | _ => rfl

@[simp] theorem apply_replies : (e.apply s).replies = s.replies := by
  cases e with
  | write reg v => exact s.setX_replies reg v
  | _ => rfl

theorem apply_err : (e.apply s).err = s.err ∨ e = .divZero ∧ (e.apply s).err = .divZero := by
  cases e with
  | write reg v => exact .inl (s.setX_err reg v)
  | divZero => exact .inr ⟨rfl, rfl⟩
  | _ => exact .inl rfl

theorem apply_cmp : (e.apply s).cmp = s.cmp ∨ ∃ c, e = .compare c := by
  cases e with
  | write reg v => exact .inl (s.setX_cmp reg v)
  | compare c => exact .inr ⟨c, rfl⟩
  | _ => exact .inl rfl

theorem apply_flags :
    (e.apply s).ovf = s.ovf ∧ (e.apply s).lovf = s.lovf ∨
    (∃ v event, e = .arith v event ∧ (e.apply s).ovf = (s.ovf || event) ∧ (e.apply s).lovf = event) ∨
    e = .clearOvf ∧ (e.apply s).ovf = false ∧ (e.apply s).lovf = s.lovf := by
  cases e with
  | write reg v => exact .inl ⟨s.setX_ovf reg v, s.setX_lovf reg v⟩
  | arith v event => exact .inr (.inl ⟨v, event, rfl, rfl, rfl⟩)
  | clearOvf => exact .inr (.inr ⟨rfl, rfl, rfl⟩)
  | _ => exact .inl ⟨rfl, rfl⟩

/-- From LOVF = 0, as Execute leaves it, LOVF says whether there was an event. -/
theorem apply_lovf {s : State} (h : s.lovf = false) : (e.apply s).lovf = e.event := by
  cases e with
  | write reg v => exact (s.setX_lovf reg v).trans h
  | arith v event => rfl
  | _ => exact h

/-- R22: an overflow event sets OVF. -/
theorem apply_ovf_of_event (h : e.event = true) : (e.apply s).ovf = true := by
  cases e with
  | arith v event =>
    cases (h : event = true)
    exact Bool.or_true s.ovf
  | _ => cases h

/-- An effect leaves alone the registers that it does not write. -/
theorem apply_frame {reg : DataReg} (h : reg ∉ e.writes) :
    (e.apply s).x reg = s.x reg ∧ (e.apply s).written.has reg = s.written.has reg := by
  cases e with
  | write reg' v => exact s.setX_frame v (List.ne_of_not_mem_cons h)
  | arith v event => exact s.setX_frame v (List.ne_of_not_mem_cons h)
  | quotRem q r =>
    obtain ⟨ha, hr⟩ := List.ne_and_not_mem_of_not_mem_cons h
    obtain ⟨hx1, hw1⟩ := s.setX_frame q ha
    obtain ⟨hx2, hw2⟩ := (s.setX .a q).setX_frame r (List.ne_of_not_mem_cons hr)
    exact ⟨hx2.trans hx1, hw2.trans hw1⟩
  | _ => exact ⟨rfl, rfl⟩

/-- What an effect leaves in the registers it writes does not depend on the state. -/
theorem apply_x_of_mem (s s' : State) {reg : DataReg} (h : reg ∈ e.writes) : (e.apply s).x reg = (e.apply s').x reg := by
  cases e with
  | write reg' v =>
    cases List.mem_singleton.1 h
    exact s.x_setX_congr s' reg v
  | arith v event =>
    cases List.mem_singleton.1 h
    rfl
  | quotRem q r => obtain rfl | rfl := List.mem_pair.1 h <;> rfl
  | _ => cases h

/-- R22: an effect reads no OVF. -/
theorem apply_withOvf (o : Bool) : { e.apply { s with ovf := o } with ovf := (e.apply s).ovf } = e.apply s := by
  cases e with
  | write reg v => cases reg <;> rfl
  | _ => rfl

end Effect

/-! ### The effect of each command -/

/-- R70: the commands that check for a zero divisor. -/
def divides : Instr → Bool
  | .div | .divmod | .sdiv => true
  | .zero | .copy | .fromu32 | .fromi32 | .tou32 | .toi32 | .clrovf | .cmp | .scmp | .shl _ | .add | .sub | .mul
  | .neg | .sadd | .ssub | .smul => false

/-- The effect of a command that finds no zero divisor, from the values `x` of the registers. -/
def resultOf (i : Instr) (x : DataReg → Word) : Effect :=
  match i with
  | .zero => .write .a Word.ZERO
  | .copy => .write .a (x .b)
  | .fromu32 => .write .a (zext64 (low32 (x .w)))
  | .fromi32 => .write .a (sext64 (low32 (x .w)))
  | .tou32 | .toi32 => .write .w (zext64 (low32 (x .a)))
  | .clrovf => .clearOvf
  | .cmp => .compare (compareUnsigned (x .a) (x .b))
  | .scmp => .compare (compareSigned (x .a) (x .b))
  | .shl n => .write .a (shiftLeft (x .a) n)
  | .add => .arith (bits64 (u (x .a) + u (x .b))) (aboveU64 (u (x .a) + u (x .b)))
  | .sub => .arith (bits64 (u (x .a) - u (x .b))) (aboveU (x .b) (x .a))
  | .mul => .arith (bits64 (u (x .a) * u (x .b))) (aboveU64 (u (x .a) * u (x .b)))
  | .div => .write .a (bits64 (u (x .a) / u (x .b)))
  | .divmod => .quotRem (bits64 (u (x .a) / u (x .b))) (bits64 (u (x .a) % u (x .b)))
  | .neg => .arith (bits64 (-sv (x .a))) (x .a == Word.MIN)
  | .sadd => .arith (bits64 (sv (x .a) + sv (x .b))) (!inS64 (sv (x .a) + sv (x .b)))
  | .ssub => .arith (bits64 (sv (x .a) - sv (x .b))) (!inS64 (sv (x .a) - sv (x .b)))
  | .smul => .arith (bits64 (sv (x .a) * sv (x .b))) (!inS64 (sv (x .a) * sv (x .b)))
  | .sdiv => .arith (bits64 (truncDiv (sv (x .a)) (sv (x .b)))) (!inS64 (truncDiv (sv (x .a)) (sv (x .b))))

/-- The effect of a command, from the values `x` of the registers. -/
def effectOf (i : Instr) (x : DataReg → Word) : Effect :=
  if divides i = true ∧ x .b = 0#64 then .divZero else resultOf i x

theorem effectOf_of_zeroDivisor {i : Instr} {x : DataReg → Word} (hi : divides i = true) (hb : x .b = 0#64) :
    effectOf i x = .divZero :=
  if_pos ⟨hi, hb⟩

theorem effectOf_of_not_zeroDivisor {i : Instr} {x : DataReg → Word} (h : ¬ (divides i = true ∧ x .b = 0#64)) :
    effectOf i x = resultOf i x :=
  if_neg h

/-- R70: a command that checks for a zero divisor, once the rest of it is known to be its result. -/
theorem exec_eq_effect_of_divides {i : Instr} {s go : State} (hexec : exec i s = .next (s.unlessDivisorZero go))
    (hi : divides i = true) (hgo : go = (resultOf i s.x).apply s) :
    exec i s = .next ((effectOf i s.x).apply s) := by
  rw [hexec, State.unlessDivisorZero_eq, hgo]
  by_cases hb : s.b = 0#64
  · rw [if_pos hb, effectOf_of_zeroDivisor hi hb]
    rfl
  · rw [if_neg hb, effectOf_of_not_zeroDivisor fun h => hb h.2]

/-- The meaning of a command is its effect. -/
theorem exec_eq_effect (i : Instr) (s : State) : exec i s = .next ((effectOf i s.x).apply s) := by
  cases i with
  | div | divmod | sdiv => exact exec_eq_effect_of_divides rfl rfl rfl
  | _ => rfl

theorem effectOf_cases (i : Instr) (x : DataReg → Word) :
    (divides i = true ∧ x .b = 0#64) ∧ effectOf i x = .divZero ∨
      ¬ (divides i = true ∧ x .b = 0#64) ∧ effectOf i x = resultOf i x := by
  by_cases h : divides i = true ∧ x .b = 0#64
  · exact .inl ⟨h, if_pos h⟩
  · exact .inr ⟨h, if_neg h⟩

/-- R20, the "reads" column: the effect of a command depends on the registers of its read set alone. -/
theorem effectOf_congr {i : Instr} {x x' : DataReg → Word} (h : ∀ reg ∈ readSet i, x reg = x' reg) :
    effectOf i x = effectOf i x' := by
  cases i <;> simp_all [readSet, effectOf, resultOf, divides]

theorem effectOf_eq_divZero_iff {i : Instr} {x : DataReg → Word} :
    effectOf i x = .divZero ↔ divides i = true ∧ x .b = 0#64 := by
  rcases effectOf_cases i x with ⟨h, he⟩ | ⟨h, he⟩
  · exact iff_of_true he h
  · rw [he]
    exact iff_of_false (by cases i <;> simp [resultOf]) h

/-- From ERR = NONE, as Execute leaves it, a command reports a zero divisor or nothing (R24, R82). -/
theorem err_apply_effectOf (i : Instr) (x : DataReg → Word) {s : State} (h : s.err = .none) :
    ((effectOf i x).apply s).err = if divides i = true ∧ x .b = 0#64 then .divZero else .none := by
  rcases effectOf_cases i x with ⟨hz, he⟩ | ⟨hz, -⟩
  · rw [if_pos hz, he]
    rfl
  · rw [if_neg hz, ← h]
    exact ((effectOf i x).apply_err s).resolve_right fun hd => hz (effectOf_eq_divZero_iff.1 hd.1)

/-- R20, the "writes" column: the data registers that a command writes, unless it raises. -/
theorem writes_resultOf (i : Instr) (x : DataReg → Word) : (resultOf i x).writes = writeSet i := by
  cases i <;> rfl

theorem writes_effectOf_subset (i : Instr) (x : DataReg → Word) : (effectOf i x).writes ⊆ writeSet i := by
  rcases effectOf_cases i x with ⟨-, he⟩ | ⟨-, he⟩ <;> rw [he]
  · exact List.nil_subset _
  · rw [writes_resultOf]
    exact List.Subset.refl _

/-- The commands that can have an overflow event (R22). -/
def overflowCommands : List Instr := [.add, .sub, .mul, .neg, .sadd, .ssub, .smul, .sdiv]

theorem resultOf_eq_of_effectOf_eq {i : Instr} {x : DataReg → Word} {e : Effect} (h : effectOf i x = e)
    (hne : e ≠ .divZero) : resultOf i x = e := by
  rcases effectOf_cases i x with ⟨-, he⟩ | ⟨-, he⟩
  · exact absurd (h.symm.trans he) hne
  · exact he.symm.trans h

theorem mem_overflowCommands_of_arith {i : Instr} {x : DataReg → Word} {v : Word} {event : Bool}
    (h : effectOf i x = .arith v event) : i ∈ overflowCommands := by
  have h := resultOf_eq_of_effectOf_eq h nofun
  cases i <;> simp_all [resultOf, overflowCommands]

theorem eq_clrovf_of_clearOvf {i : Instr} {x : DataReg → Word} (h : effectOf i x = .clearOvf) : i = .clrovf := by
  have h := resultOf_eq_of_effectOf_eq h nofun
  cases i <;> simp_all [resultOf]

theorem eq_cmp_or_scmp_of_compare {i : Instr} {x : DataReg → Word} {c : CmpResult} (h : effectOf i x = .compare c) :
    i = .cmp ∨ i = .scmp := by
  have h := resultOf_eq_of_effectOf_eq h nofun
  cases i <;> simp_all [resultOf]

/-- R22: an overflow event comes of one of the eight commands alone. -/
theorem mem_overflowCommands_of_event {i : Instr} {x : DataReg → Word} (h : (effectOf i x).event = true) :
    i ∈ overflowCommands := by
  rcases he : effectOf i x with _ | ⟨v, event⟩ | _ | _ | _ | _ <;> rw [he] at h
  case arith => exact mem_overflowCommands_of_arith he
  all_goals cases h

/-! ### Overflow events and true results (R23, R64, R65, R68, R75) -/

/-- The true result does not fit the 64 bits that must hold it. -/
def OutOfRange (result : Option (Bool × Int)) : Prop :=
  ∃ n, result = some (false, n) ∧ ¬ (0 ≤ n ∧ n ≤ 2 ^ 64 - 1) ∨
    result = some (true, n) ∧ ¬ (-2 ^ 63 ≤ n ∧ n ≤ 2 ^ 63 - 1)

theorem not_outOfRange_none : ¬ OutOfRange none := by
  rintro ⟨n, ⟨h, -⟩ | ⟨h, -⟩⟩ <;> cases h

theorem outOfRange_unsigned_iff (n : Int) : OutOfRange (some (false, n)) ↔ n < 0 ∨ 2 ^ 64 ≤ n := by
  simp only [OutOfRange, Option.some.injEq, Prod.mk.injEq, true_and, reduceCtorEq, false_and, or_false,
    exists_eq_left']
  omega

theorem outOfRange_signed_iff (n : Int) : OutOfRange (some (true, n)) ↔ (!inS64 n) = true := by
  simp only [OutOfRange, Option.some.injEq, Prod.mk.injEq, true_and, reduceCtorEq, false_and, false_or,
    exists_eq_left', not_inS64_iff]
  omega

/-- R74: only MIN has no negation. -/
theorem beq_min_iff (v : Word) : (v == Word.MIN) = true ↔ (!inS64 (-v.toInt)) = true := by
  have hlt := BitVec.toInt_lt (x := v)
  have hle := BitVec.le_toInt v
  rw [beq_iff_eq, ← BitVec.toInt_inj, not_inS64_iff]
  have hmin : Word.MIN.toInt = -2 ^ 63 := by decide
  omega

/-- A command has an overflow event exactly when its true result is out of range. -/
theorem event_effectOf_iff (i : Instr) (x : DataReg → Word) :
    (effectOf i x).event = true ↔ OutOfRange (trueResult i (x .a) (x .b)) := by
  have ha := u_nonneg (x .a)
  have hb := u_nonneg (x .b)
  cases i with
  | add =>
    refine (aboveU64_iff _).trans (Iff.trans ?_ (outOfRange_unsigned_iff _).symm)
    unfold u at *; omega
  | sub =>
    refine (aboveU_iff _ _).trans (Iff.trans ?_ (outOfRange_unsigned_iff _).symm)
    have := (x .a).isLt
    omega
  | mul =>
    refine (aboveU64_iff _).trans (Iff.trans ?_ (outOfRange_unsigned_iff _).symm)
    have := mul_nonneg ha hb
    unfold u at *; omega
  | neg => exact (beq_min_iff _).trans (outOfRange_signed_iff _).symm
  | sadd => rw [trueResult, outOfRange_signed_iff, ← sv_eq, ← sv_eq]; rfl
  | ssub => rw [trueResult, outOfRange_signed_iff, ← sv_eq, ← sv_eq]; rfl
  | smul => rw [trueResult, outOfRange_signed_iff, ← sv_eq, ← sv_eq]; rfl
  | sdiv =>
    by_cases hz : x .b = 0#64
    · rw [effectOf_of_zeroDivisor rfl hz, trueResult, if_pos hz]
      exact iff_of_false nofun not_outOfRange_none
    · rw [effectOf_of_not_zeroDivisor (fun h => hz h.2), trueResult, if_neg hz, outOfRange_signed_iff, ← sv_eq,
        ← sv_eq]
      rfl
  | _ =>
    refine iff_of_false (fun h => ?_) not_outOfRange_none
    have := mem_overflowCommands_of_event h
    simp [overflowCommands] at this

end Sys2Proof.Machine
end

section
/-! PROOFS, CMD and the status register (spec/10_state.md R21 to R26, R32). -/

namespace Sys2Proof.Machine

/-! ### Execute and a step, by the effect of the command -/

theorem execute_of_decode {word : Word} {i : Instr} (h : decode word = .ok i) (s : State) :
    execute word s = .next ((effectOf i s.x).apply (s.beginCommand word)) :=
  (execute_of_ok h s).trans (exec_eq_effect i (s.beginCommand word))

theorem execute_isNext (word : Word) (s : State) : ∃ t, execute word s = .next t := by
  rcases hd : decode word with e | i
  · exact ⟨_, execute_of_error hd s⟩
  · exact ⟨_, execute_of_decode hd s⟩

/-- A step in which the host writes the word of a command to CMD. -/
theorem step_of_decode {s : State} {acc : Access} {rest : List PortEvent} {word : Word} {i : Instr}
    (hp : s.port = .access acc :: rest) (ho : acc.offset = 0x20) (hb : acc.bytes = 8) (hk : acc.kind = .write word)
    (hd : decode word = .ok i) :
    step s = .next (((effectOf i s.x).apply ({ s with port := rest }.beginCommand word)).reply acc.host .done) := by
  rw [step_write_cmd hp ho hb hk, execute_of_decode hd]
  rfl

/-- A step in which the host writes a word to CMD that encodes no command. -/
theorem step_of_illegal {s : State} {acc : Access} {rest : List PortEvent} {word : Word}
    (hp : s.port = .access acc :: rest) (ho : acc.offset = 0x20) (hb : acc.bytes = 8) (hk : acc.kind = .write word)
    (hl : legal word = false) :
    step s = .next ((({ s with port := rest }.beginCommand word).raise .illegal).reply acc.host .done) := by
  obtain ⟨e, he⟩ := legal_eq_false_iff.1 hl
  rw [step_write_cmd hp ho hb hk, execute_of_error he]
  rfl

@[simp] theorem State.reply_lovf (s : State) (host : Nat) (k : ReplyKind) : (s.reply host k).lovf = s.lovf := rfl
@[simp] theorem State.reply_err (s : State) (host : Nat) (k : ReplyKind) : (s.reply host k).err = s.err := rfl

/-- `t` has the CMD and the fields of STATUS of `s`. -/
structure SameStatus (s t : State) : Prop where
  cmd : t.cmd = s.cmd
  ovf : t.ovf = s.ovf
  lovf : t.lovf = s.lovf
  err : t.err = s.err
  cmp : t.cmp = s.cmp

/-- What a step can do to CMD and STATUS: reset them, run a command or reject its word at a write to CMD, or leave them
as they were. -/
theorem step_status_cases {s t : State} (h : step s = .next t) :
    (∃ rest, s.port = .reset :: rest ∧ t = { State.reset with port := rest, replies := s.replies }) ∨
    (∃ acc rest word i, s.port = .access acc :: rest ∧ acc.offset = 0x20 ∧ acc.bytes = 8 ∧ acc.kind = .write word ∧
      decode word = .ok i ∧
      t = ((effectOf i s.x).apply ({ s with port := rest }.beginCommand word)).reply acc.host .done) ∨
    (∃ acc rest word, s.port = .access acc :: rest ∧ acc.offset = 0x20 ∧ acc.bytes = 8 ∧ acc.kind = .write word ∧
      legal word = false ∧ t = (({ s with port := rest }.beginCommand word).raise .illegal).reply acc.host .done) ∨
    SameStatus s t := by
  obtain ⟨-, rfl⟩ | hreset | ⟨acc, rest, slot, -, -, -, rfl⟩ | ⟨acc, rest, slot, v, t', hp, hs, hk, hw, rfl⟩ :=
    step_next_cases h
  · exact .inr (.inr (.inr ⟨rfl, rfl, rfl, rfl, rfl⟩))
  · exact .inl hreset
  · exact .inr (.inr (.inr ⟨rfl, rfl, rfl, rfl, rfl⟩))
  · cases slot with
    | data reg =>
      cases hw
      exact .inr (.inr (.inr ⟨State.setX_cmd _ reg v, State.setX_ovf _ reg v, State.setX_lovf _ reg v,
        State.setX_err _ reg v, State.setX_cmp _ reg v⟩))
    | cmd =>
      obtain ⟨hb, ho⟩ := acc.slot_eq_cmd_iff.1 hs
      rcases hl : legal v with _ | _
      · exact .inr (.inr (.inl ⟨acc, rest, v, hp, ho, hb, hk, hl,
          Host.Outcome.next.inj (h.symm.trans (step_of_illegal hp ho hb hk hl))⟩))
      · obtain ⟨i, hi⟩ := legal_eq_true_iff.1 hl
        exact .inr (.inl ⟨acc, rest, v, i, hp, ho, hb, hk, hi,
          Host.Outcome.next.inj (h.symm.trans (step_of_decode hp ho hb hk hi))⟩)
    | status | reserved =>
      cases hw
      exact .inr (.inr (.inr ⟨rfl, rfl, rfl, rfl, rfl⟩))

/-! ### The word in CMD and STATUS -/

theorem encode_mem_of_event {i : Instr} {x : DataReg → Word} (h : (effectOf i x).event = true) :
    encode i ∈ [0x30#64, 0x31#64, 0x40#64, 0x50#64, 0x51#64, 0x52#64, 0x53#64, 0x54#64] :=
  List.mem_map_of_mem (f := encode) (mem_overflowCommands_of_event h)

theorem encode_mem_of_divides {i : Instr} (h : divides i = true) : encode i ∈ [0x41#64, 0x42#64, 0x54#64] := by
  cases i with
  | div | divmod | sdiv => decide
  | _ => cases h

/-- Whatever STATUS said before, a command leaves it describing its word. -/
theorem statusInv_of_decode {word : Word} {i : Instr} (hd : decode word = .ok i) (s : State) :
    StatusInv ((effectOf i s.x).apply (s.beginCommand word)) := by
  obtain ⟨-, rfl⟩ := decode_eq_ok_iff_encode.1 hd
  have hevent : ((effectOf i s.x).apply (s.beginCommand (encode i))).lovf = true → (effectOf i s.x).event = true :=
    fun h => (Effect.apply_lovf _ (s.beginCommand_lovf (encode i))).symm.trans h
  have hcmd := Effect.apply_cmd (s.beginCommand (encode i)) (effectOf i s.x)
  have hlegal := legal_of_decode hd
  constructor
  case lovf_ovf => exact fun h => Effect.apply_ovf_of_event _ _ (hevent h)
  case lovf_err =>
    intro h
    rcases Effect.apply_err (s.beginCommand (encode i)) (effectOf i s.x) with he | ⟨he, -⟩
    · exact he
    · have := hevent h
      rw [he] at this
      cases this
  case lovf_cmd => exact fun h => hcmd ▸ encode_mem_of_event (hevent h)
  case illegal_cmd =>
    intro h
    rcases Effect.apply_err (s.beginCommand (encode i)) (effectOf i s.x) with he | ⟨-, he⟩ <;>
      cases he.symm.trans h
  case divZero_cmd =>
    intro h
    rcases Effect.apply_err (s.beginCommand (encode i)) (effectOf i s.x) with he | ⟨he, -⟩
    · cases he.symm.trans h
    · exact hcmd ▸ encode_mem_of_divides (effectOf_eq_divZero_iff.1 he).1
  case none_cmd => exact fun _ => .inl (hcmd ▸ hlegal)

theorem statusInv_of_illegal {word : Word} (h : legal word = false) (s : State) :
    StatusInv ((s.beginCommand word).raise .illegal) where
  lovf_ovf := nofun
  lovf_err := nofun
  lovf_cmd := nofun
  illegal_cmd := fun _ => h
  divZero_cmd := nofun
  none_cmd := nofun

/-- A reply says nothing of STATUS. -/
theorem StatusInv.reply {s : State} (h : StatusInv s) (host : Nat) (k : ReplyKind) : StatusInv (s.reply host k) :=
  ⟨h.lovf_ovf, h.lovf_err, h.lovf_cmd, h.illegal_cmd, h.divZero_cmd, h.none_cmd⟩

theorem StatusInv.of_sameStatus {s t : State} (h : StatusInv s) (hs : SameStatus s t) : StatusInv t := by
  obtain ⟨hcmd, hovf, hlovf, herr, -⟩ := hs
  constructor <;> simp only [hcmd, hovf, hlovf, herr]
  exacts [h.lovf_ovf, h.lovf_err, h.lovf_cmd, h.illegal_cmd, h.divZero_cmd, h.none_cmd]

/-- STATUS describes CMD after reset, whatever the port and the replies are. -/
theorem statusInv_reset (port : List PortEvent) (replies : List Reply) :
    StatusInv { State.reset with port := port, replies := replies } where
  lovf_ovf := nofun
  lovf_err := nofun
  lovf_cmd := nofun
  illegal_cmd := nofun
  divZero_cmd := nofun
  none_cmd := fun _ => .inr rfl

/-- Settles O26: the reset state, with an empty port and no replies. -/
theorem resetStatusDescribesCmd : Obligations.ResetStatusDescribesCmd :=
  statusInv_reset [] []

/-- Settles O25. The steps that touch CMD or STATUS establish the invariant from any state; the others keep it. -/
theorem statusDescribesCmd : Obligations.StatusDescribesCmd := by
  intro s t hs h
  obtain ⟨rest, -, rfl⟩ | ⟨acc, rest, word, i, -, -, -, -, hd, rfl⟩ | ⟨acc, rest, word, -, -, -, -, hl, rfl⟩ | hsame :=
    step_status_cases h
  · exact statusInv_reset rest s.replies
  · exact (statusInv_of_decode hd { s with port := rest }).reply acc.host .done
  · exact (statusInv_of_illegal hl { s with port := rest }).reply acc.host .done
  · exact hs.of_sameStatus hsame

/-! ### STATUS as the host reads it (R21) -/

theorem statusWord_layout (ovf lovf : Bool) (err : ErrCode) (cmp : CmpResult) :
    (statusWord ovf lovf err cmp).getLsbD 0 = ovf ∧ (statusWord ovf lovf err cmp).getLsbD 1 = lovf ∧
    (statusWord ovf lovf err cmp).extractLsb' 2 2 = err.code ∧
    (statusWord ovf lovf err cmp).extractLsb' 4 2 = cmp.code ∧
    (statusWord ovf lovf err cmp).getLsbD 6 = cmp.eq ∧ (statusWord ovf lovf err cmp).getLsbD 7 = cmp.gt ∧
    (statusWord ovf lovf err cmp).getLsbD 8 = cmp.lt ∧ (statusWord ovf lovf err cmp).getLsbD 9 = cmp.ge ∧
    (statusWord ovf lovf err cmp).getLsbD 10 = cmp.le ∧ (statusWord ovf lovf err cmp).toNat < 2 ^ 11 := by
  revert ovf lovf
  cases err <;> cases cmp <;> decide

/-- Settles O17, from the layout of `statusWord`; the codes of ERR and CMP are those of the table. -/
theorem statusLayout : Obligations.StatusLayout := by
  intro s
  obtain ⟨hovf, hlovf, herr, hcmp, heq, hgt, hlt, hge, hle, hbound⟩ := statusWord_layout s.ovf s.lovf s.err s.cmp
  refine ⟨hovf, hlovf, herr.trans ?_, hcmp.trans ?_, heq.trans ?_, hgt.trans ?_, hlt.trans ?_, hge.trans ?_,
    hle.trans ?_, hbound⟩
  · cases s.err <;> rfl
  all_goals cases s.cmp <;> rfl

/-- Settles O15, from the one step that reset can take. -/
theorem resetState : Obligations.ResetState := by
  intro s rest hp
  refine ⟨_, step_reset hp, rfl, rfl, rfl, rfl, rfl, (by decide : State.reset.status = _),
    Written.has_none, ?_⟩
  exact (zext64_toNat 0#32).trans_lt (by decide)

/-! ### The flags after a step -/

theorem Effect.eq_clearOvf_of_apply_ovf {e : Effect} {s : State} (hs : s.ovf = true) (h : (e.apply s).ovf = false) :
    e = .clearOvf := by
  rcases e.apply_flags s with ⟨ho, -⟩ | ⟨v, event, -, ho, -⟩ | ⟨he, -, -⟩
  · simp [ho, hs] at h
  · simp [ho, hs] at h
  · exact he

theorem Effect.eq_arith_of_apply_ovf {e : Effect} {s : State} (hs : s.ovf = false) (h : (e.apply s).ovf = true) :
    ∃ v, e = .arith v true ∧ (e.apply s).lovf = true := by
  rcases e.apply_flags s with ⟨ho, -⟩ | ⟨v, event, he, ho, hl⟩ | ⟨-, ho, -⟩
  · simp [ho, hs] at h
  · obtain rfl : event = true := by simpa [ho, hs] using h
    exact ⟨v, he, hl⟩
  · simp [ho] at h

/-- R22: only reset and CLROVF clear OVF. -/
theorem step_clears_ovf {s t : State} (h : step s = .next t) (hs : s.ovf = true) (ht : t.ovf = false) :
    (∃ rest, s.port = .reset :: rest) ∨
    ∃ acc rest, s.port = .access acc :: rest ∧ acc.offset = 0x20 ∧ acc.bytes = 8 ∧
      acc.kind = .write 0x000000000000000F#64 := by
  obtain ⟨rest, hp, -⟩ | ⟨acc, rest, word, i, hp, ho, hb, hk, hd, rfl⟩ | ⟨_, _, _, -, -, -, -, -, rfl⟩ | hsame :=
    step_status_cases h
  · exact .inl ⟨rest, hp⟩
  · obtain rfl := eq_clrovf_of_clearOvf
      (Effect.eq_clearOvf_of_apply_ovf (s := ({ s with port := rest } : State).beginCommand word) hs ht)
    obtain ⟨-, rfl⟩ := decode_eq_ok_iff_encode.1 hd
    exact .inr ⟨acc, rest, hp, ho, hb, hk⟩
  · cases hs.symm.trans ht
  · cases (hs.symm.trans hsame.ovf.symm).trans ht

/-- R22, R23: only an overflow event sets OVF, and LOVF reports it. -/
theorem step_sets_ovf {s t : State} (h : step s = .next t) (hs : s.ovf = false) (ht : t.ovf = true) :
    t.lovf = true ∧ ∃ acc rest word, s.port = .access acc :: rest ∧ acc.offset = 0x20 ∧ acc.bytes = 8 ∧
      acc.kind = .write word ∧ ∃ i ∈ overflowCommands, decode word = .ok i := by
  obtain ⟨_, -, rfl⟩ | ⟨acc, rest, word, i, hp, ho, hb, hk, hd, rfl⟩ | ⟨_, _, _, -, -, -, -, -, rfl⟩ | hsame :=
    step_status_cases h
  · cases ht
  · obtain ⟨v, he, hl⟩ :=
      Effect.eq_arith_of_apply_ovf (s := ({ s with port := rest } : State).beginCommand word) hs ht
    exact ⟨hl, acc, rest, word, hp, ho, hb, hk, i, mem_overflowCommands_of_arith he, hd⟩
  · cases hs.symm.trans ht
  · cases (hs.symm.trans hsame.ovf.symm).trans ht

/-- Settles O18: its clauses on steps are `step_clears_ovf` and `step_sets_ovf`, those on commands are facts about
effects. -/
theorem ovfIsSticky : Obligations.OvfIsSticky := by
  refine ⟨fun _ _ => step_clears_ovf, fun _ _ => step_sets_ovf, ?_, ?_, ?_⟩
  · intro i s t hs h ht
    cases (exec_eq_effect i s).symm.trans h
    exact Effect.apply_ovf_of_event _ _ ((Effect.apply_lovf _ hs).symm.trans ht)
  · intro s
    exact (statusWord_layout s.ovf s.lovf s.err s.cmp).1
  · intro i s t o h
    cases (exec_eq_effect i s).symm.trans h
    exact ⟨_, exec_eq_effect i { s with ovf := o }, Effect.apply_withOvf s _ o⟩

/-- Settles O19: LOVF reports the event of the command's effect, which is that of a true result out of range. -/
theorem lovfIffResultOutOfRange : Obligations.LovfIffResultOutOfRange := by
  intro s acc rest word hp ho hb hk
  rcases hl : legal word with _ | _
  · obtain ⟨e, he⟩ := legal_eq_false_iff.1 hl
    refine ⟨_, step_of_illegal hp ho hb hk hl, iff_of_false nofun ?_, nofun⟩
    rintro ⟨i, n, hi, -⟩
    cases he.symm.trans hi
  · obtain ⟨i, hi⟩ := legal_eq_true_iff.1 hl
    have hlovf := Effect.apply_lovf (effectOf i s.x) (State.beginCommand_lovf { s with port := rest } word)
    refine ⟨_, step_of_decode hp ho hb hk hi, ?_, fun h => Effect.apply_ovf_of_event _ _ (hlovf.symm.trans h)⟩
    calc
      _ ↔ (effectOf i s.x).event = true := by rw [State.reply_lovf, hlovf]
      _ ↔ OutOfRange (trueResult i s.a s.b) := event_effectOf_iff i s.x
      _ ↔ _ := by simp [hi, OutOfRange]

/-- R47, R70: the words of the commands that divide. -/
theorem divides_iff_of_decode {word : Word} {i : Instr} (h : decode word = .ok i) :
    divides i = true ↔ word = 0x41#64 ∨ word = 0x42#64 ∨ word = 0x54#64 := by
  constructor
  · intro hi
    obtain ⟨-, rfl⟩ := decode_eq_ok_iff_encode.1 h
    simpa using encode_mem_of_divides hi
  · rintro (rfl | rfl | rfl) <;> cases h <;> rfl

/-- Settles O20: a word is illegal, or its command's effect is the zero divisor's, or ERR stays NONE. -/
theorem errReportsTheLastCommand : Obligations.ErrReportsTheLastCommand := by
  intro s acc rest word hp ho hb hk
  rcases hl : legal word with _ | _
  · refine ⟨_, step_of_illegal hp ho hb hk hl, iff_of_true rfl rfl, iff_of_false nofun ?_, iff_of_false nofun nofun⟩
    rintro ⟨rfl | rfl | rfl, -⟩ <;> cases hl
  · obtain ⟨i, hi⟩ := legal_eq_true_iff.1 hl
    refine ⟨_, step_of_decode hp ho hb hk hi, ?_⟩
    rw [State.reply_err, err_apply_effectOf i s.x (State.beginCommand_err _ word), State.x_b,
      ← divides_iff_of_decode hi]
    by_cases hz : divides i = true ∧ s.b = 0#64
    · rw [if_pos hz]
      exact ⟨iff_of_false nofun nofun, iff_of_true rfl hz, iff_of_false nofun fun h => h.2 hz⟩
    · rw [if_neg hz]
      exact ⟨iff_of_false nofun nofun, iff_of_false nofun hz, iff_of_true rfl ⟨rfl, hz⟩⟩

/-- Settles O22: of the steps that touch STATUS, only reset and a comparator's result reach CMP. -/
theorem onlyComparesWriteCmp : Obligations.OnlyComparesWriteCmp := by
  intro s t h hne
  obtain ⟨rest, hp, -⟩ | ⟨acc, rest, word, i, hp, ho, hb, hk, hd, rfl⟩ | ⟨_, _, _, -, -, -, -, -, rfl⟩ | hsame :=
    step_status_cases h
  · exact .inl ⟨rest, hp⟩
  · obtain ⟨-, rfl⟩ := decode_eq_ok_iff_encode.1 hd
    obtain ⟨c, he⟩ := (Effect.apply_cmp _ _).resolve_left hne
    obtain rfl | rfl := eq_cmp_or_scmp_of_compare he
    · exact .inr ⟨acc, rest, hp, ho, hb, .inl hk⟩
    · exact .inr ⟨acc, rest, hp, ho, hb, .inr hk⟩
  · exact absurd rfl hne
  · exact absurd hsame.cmp hne

end Sys2Proof.Machine
end

section
/-! PROOFS, what a command reads and writes (spec/10_state.md R20). -/

namespace Sys2Proof.Machine

/-! ### What a command leaves unchanged -/

/-- R20, the "writes" column: a command leaves every other data register alone. -/
theorem exec_frame {i : Instr} {s t : State} (h : exec i s = .next t) {reg : DataReg} (hreg : reg ∉ writeSet i) :
    t.x reg = s.x reg ∧ t.written.has reg = s.written.has reg := by
  cases (exec_eq_effect i s).symm.trans h
  exact Effect.apply_frame s _ fun hw => hreg (writes_effectOf_subset i s.x hw)

theorem w_eq_of_x_eq {s t : State} (h : t.x .w = s.x .w) : t.w = s.w := by
  have := congrArg low32 h
  rwa [State.x_w, State.x_w, low32_zext64, low32_zext64] at this

theorem exec_flags {i : Instr} {s t : State} (h : exec i s = .next t) (hi : i ∉ Instr.clrovf :: overflowCommands) :
    t.ovf = s.ovf ∧ t.lovf = s.lovf := by
  cases (exec_eq_effect i s).symm.trans h
  obtain ⟨harith, hclr⟩ : i ∉ overflowCommands ∧ i ≠ .clrovf := by simp_all
  rcases Effect.apply_flags s (effectOf i s.x) with hsame | ⟨v, event, he, -⟩ | ⟨he, -⟩
  · exact hsame
  · exact absurd (mem_overflowCommands_of_arith he) harith
  · exact absurd (eq_clrovf_of_clearOvf he) hclr

theorem exec_cmp_eq {i : Instr} {s t : State} (h : exec i s = .next t) (hc : i ≠ .cmp) (hs : i ≠ .scmp) :
    t.cmp = s.cmp := by
  cases (exec_eq_effect i s).symm.trans h
  rcases Effect.apply_cmp s (effectOf i s.x) with hsame | ⟨c, he⟩
  · exact hsame
  · exact ((eq_cmp_or_scmp_of_compare he).elim hc hs).elim

theorem exec_err_eq {i : Instr} {s t : State} (h : exec i s = .next t) (hi : divides i = false) : t.err = s.err := by
  cases (exec_eq_effect i s).symm.trans h
  rcases Effect.apply_err s (effectOf i s.x) with hsame | ⟨he, -⟩
  · exact hsame
  · exact absurd (effectOf_eq_divZero_iff.1 he).1 (by simp [hi])

/-- Settles O23, from the frame of the command's effect, register by register and flag by flag. -/
theorem commandFrame : Obligations.CommandFrame := by
  intro i s t h
  obtain ⟨hb, hwb⟩ := exec_frame h (reg := .b) (by cases i <;> simp [writeSet])
  refine ⟨hb, hwb, ?_, ?_, ?_, ?_, ?_, ?_, exec_flags h, exec_cmp_eq h, ?_⟩
  · cases (exec_eq_effect i s).symm.trans h
    exact Effect.apply_cmd s _
  · cases (exec_eq_effect i s).symm.trans h
    exact Effect.apply_port s _
  · cases (exec_eq_effect i s).symm.trans h
    exact Effect.apply_replies s _
  · intro hi
    exact exec_frame h (reg := .r) (by cases i <;> simp_all [writeSet])
  · intro hu hs
    obtain ⟨hw, hww⟩ := exec_frame h (reg := .w) (by cases i <;> simp_all [writeSet])
    exact ⟨w_eq_of_x_eq hw, hww⟩
  · intro hi
    exact exec_frame h (reg := .a) (by rcases hi with rfl | rfl | rfl | rfl | rfl <;> decide)
  · intro hd hm hs
    exact exec_err_eq h (by cases i <;> simp_all [divides])

/-! ### What a command's result depends on -/

/-- From the same flags, an effect leaves the same flags. -/
theorem Effect.apply_flags_congr (e : Effect) {s s' : State} (herr : s.err = s'.err) (hlovf : s.lovf = s'.lovf)
    (hovf : s.ovf = s'.ovf) (hcmp : s.cmp = s'.cmp) :
    (e.apply s).err = (e.apply s').err ∧ (e.apply s).lovf = (e.apply s').lovf ∧
      (e.apply s).ovf = (e.apply s').ovf ∧ (e.apply s).cmp = (e.apply s').cmp := by
  cases e with
  | write reg v => simp [apply, *]
  | arith v event => exact ⟨herr, rfl, by simp [apply, hovf], hcmp⟩
  | quotRem q r => exact ⟨herr, hlovf, hovf, hcmp⟩
  | clearOvf => exact ⟨herr, hlovf, rfl, hcmp⟩
  | compare c => exact ⟨herr, hlovf, hovf, rfl⟩
  | divZero => exact ⟨rfl, hlovf, hovf, hcmp⟩

/-- A command that ends with ERR = NONE writes all of its write set. -/
theorem writes_effectOf_of_err_none {i : Instr} {x : DataReg → Word} {s : State}
    (h : ((effectOf i x).apply s).err = .none) : (effectOf i x).writes = writeSet i := by
  rcases effectOf_cases i x with ⟨-, he⟩ | ⟨-, he⟩
  · rw [he] at h
    cases h
  · rw [he, writes_resultOf]

/-- Settles O24: both states give the command the same effect, and an effect leaves the same in what it writes. -/
theorem commandReadsOnlyItsReadSet : Obligations.CommandReadsOnlyItsReadSet := by
  intro i s s' t t' hread herr herr' hlovf hovf hcmp h h'
  cases (exec_eq_effect i s).symm.trans h
  cases (exec_eq_effect i s').symm.trans h'
  rw [← effectOf_congr hread]
  obtain ⟨he, hl, ho, hc⟩ := (effectOf i s.x).apply_flags_congr (herr.trans herr'.symm) hlovf hovf hcmp
  refine ⟨he, hl, ho, hc, fun hnone reg hreg => ?_⟩
  rw [← writes_effectOf_of_err_none hnone] at hreg
  exact Effect.apply_x_of_mem _ s s' hreg

end Sys2Proof.Machine
end

section
/-! PROOFS, registers that nothing has written (spec/10_state.md R31, spec/60_exceptions.md R85, R87). -/

namespace Sys2Proof.Machine

/-! ### The first unwritten register -/

theorem State.firstUnwritten_cons_of_unwritten {s : State} {reg : DataReg} (regs : List DataReg)
    (h : s.written.has reg = false) : s.firstUnwritten (reg :: regs) = some reg :=
  List.find?_cons_of_pos (by simp [h])

theorem State.firstUnwritten_cons_of_written {s : State} {reg : DataReg} (regs : List DataReg)
    (h : s.written.has reg = true) : s.firstUnwritten (reg :: regs) = s.firstUnwritten regs :=
  List.find?_cons_of_neg (by simp [h])

theorem State.firstUnwritten_eq_none_iff {s : State} {regs : List DataReg} :
    s.firstUnwritten regs = none ↔ ∀ reg ∈ regs, s.written.has reg = true := by
  simp [firstUnwritten, List.find?_eq_none]

/-! ### The unwritten register that an access reads -/

section
variable {s : State} {acc : Access} {rest : List PortEvent}

theorem State.unwrittenReadBy_read {reg : DataReg} (hs : acc.slot = some (.data reg)) (hk : acc.kind = .read) :
    s.unwrittenReadBy acc = s.firstUnwritten [reg] := by
  unfold unwrittenReadBy
  rw [hs, hk]

theorem State.unwrittenReadBy_command {word : Word} {i : Instr} (hs : acc.slot = some .cmd) (hk : acc.kind = .write word)
    (hd : decode word = .ok i) : s.unwrittenReadBy acc = s.firstUnwritten (readSet i) := by
  simp only [unwrittenReadBy, hs, hk, hd]

theorem State.unwrittenReadBy_illegal {word : Word} (hs : acc.slot = some .cmd) (hk : acc.kind = .write word)
    (hl : legal word = false) : s.unwrittenReadBy acc = none := by
  obtain ⟨e, he⟩ := legal_eq_false_iff.1 hl
  simp only [unwrittenReadBy, hs, hk, he]

theorem State.unwrittenReadBy_read_other {slot : Slot} (hs : acc.slot = some slot) (hne : ∀ reg, slot ≠ .data reg)
    (hk : acc.kind = .read) : s.unwrittenReadBy acc = none := by
  cases slot with
  | data reg => exact absurd rfl (hne reg)
  | _ => simp only [unwrittenReadBy, hs, hk]

theorem State.unwrittenReadBy_write_other {slot : Slot} {v : Word} (hs : acc.slot = some slot) (hne : slot ≠ .cmd)
    (hk : acc.kind = .write v) : s.unwrittenReadBy acc = none := by
  cases slot with
  | cmd => exact absurd rfl hne
  | _ => simp only [unwrittenReadBy, hs, hk]

theorem State.unwrittenRead_access (hp : s.port = .access acc :: rest) :
    s.unwrittenRead = s.unwrittenReadBy acc := by
  unfold unwrittenRead
  rw [hp]

theorem State.unwrittenRead_of_no_access (h : ∀ acc rest, s.port ≠ .access acc :: rest) : s.unwrittenRead = none := by
  unfold unwrittenRead
  split
  · rename_i acc rest hp
    exact absurd hp (h acc rest)
  · rfl

end

/-- What an access reads that is unwritten depends on the port and on `written` alone. -/
theorem State.unwrittenRead_congr {s s' : State} (hp : s.port = s'.port) (hw : s.written = s'.written) :
    s.unwrittenRead = s'.unwrittenRead := by
  simp only [unwrittenRead, unwrittenReadBy, firstUnwritten, hp, hw]

/-! ### The operands of the commands (R20) -/

theorem a_mem_readSet_iff {i : Instr} : .a ∈ readSet i ↔
    i ∈ [Instr.tou32, .toi32, .cmp, .scmp, .add, .sub, .mul, .div, .divmod, .neg, .sadd, .ssub, .smul, .sdiv] ∨
      ∃ n, i = .shl n := by
  cases i <;> simp [readSet]

theorem b_mem_readSet_iff {i : Instr} : .b ∈ readSet i ↔
    i ∈ [Instr.copy, .cmp, .scmp, .add, .sub, .mul, .div, .divmod, .sadd, .ssub, .smul, .sdiv] := by
  cases i <;> simp [readSet]

theorem w_mem_readSet_iff {i : Instr} : .w ∈ readSet i ↔ i = .fromu32 ∨ i = .fromi32 := by
  cases i <;> simp [readSet]

theorem r_notMem_readSet (i : Instr) : .r ∉ readSet i := by
  cases i <;> simp [readSet]

/-- Log entry 6: A stands before every other operand. -/
theorem readSet_of_a_mem {i : Instr} (h : .a ∈ readSet i) : ∃ regs, readSet i = .a :: regs := by
  cases i <;> simp_all [readSet]

/-- Only A stands before B, and COPY alone reads B without A. -/
theorem readSet_of_b_mem {i : Instr} (h : .b ∈ readSet i) :
    readSet i = [.b] ∨ i ≠ .copy ∧ readSet i = [.a, .b] := by
  cases i <;> simp_all [readSet]

theorem readSet_of_w_mem {i : Instr} (h : .w ∈ readSet i) : readSet i = [.w] := by
  cases i <;> simp_all [readSet]

/-! ### The checked step -/

theorem checkedStep_of_none {s : State} (h : s.unwrittenRead = none) :
    (∀ t, checkedStep s = .next t ↔ step s = .next t) ∧
      ∀ f, checkedStep s = .fault (.machine f) ↔ step s = .fault f := by
  unfold checkedStep
  rw [h]
  rcases step s with t | f | r <;> simp

theorem checkedStep_of_some {s : State} {reg : DataReg} (h : s.unwrittenRead = some reg) :
    checkedStep s = .fault (.unwrittenRead reg) :=
  (checkedStep_unwritten_iff s reg).2 h

/-- A step whose first access is admitted goes on: neither a read nor a write faults. -/
theorem step_isNext_of_slot {s : State} {acc : Access} {rest : List PortEvent} {slot : Slot}
    (hp : s.port = .access acc :: rest) (hs : acc.slot = some slot) : ∃ t, step s = .next t := by
  rw [step_access hp]
  rcases hk : acc.kind with _ | v
  · exact ⟨_, service_read hs hk _⟩
  · rw [service_write hs hk]
    cases slot with
    | cmd =>
      obtain ⟨t, ht⟩ := execute_isNext v { s with port := rest }
      exact ⟨t.reply acc.host .done, by rw [State.writeSlot, ht, replyAfter_next]⟩
    | _ => exact ⟨_, rfl⟩

/-! ### Where the checked step faults -/

section
variable {s : State} {acc : Access} {rest : List PortEvent}

theorem checkedStep_read_unwritten {reg : DataReg} (hp : s.port = .access acc :: rest) (hb : acc.bytes = 8)
    (ho : slotAt acc.offset = some (.data reg)) (hk : acc.kind = .read) (hw : s.written.has reg = false) :
    checkedStep s = .fault (.unwrittenRead reg) := by
  apply checkedStep_of_some
  rw [State.unwrittenRead_access hp, State.unwrittenReadBy_read ((acc.slot_eq_some_iff _).2 ⟨hb, ho⟩) hk]
  exact State.firstUnwritten_cons_of_unwritten [] hw

theorem unwrittenRead_command {word : Word} {i : Instr} (hp : s.port = .access acc :: rest) (ho : acc.offset = 0x20)
    (hb : acc.bytes = 8) (hk : acc.kind = .write word) (hd : decode word = .ok i) :
    s.unwrittenRead = s.firstUnwritten (readSet i) := by
  rw [State.unwrittenRead_access hp, State.unwrittenReadBy_command (acc.slot_eq_cmd_iff.2 ⟨hb, ho⟩) hk hd]

theorem unwrittenRead_illegal {word : Word} (hp : s.port = .access acc :: rest) (ho : acc.offset = 0x20)
    (hb : acc.bytes = 8) (hk : acc.kind = .write word) (hl : legal word = false) : s.unwrittenRead = none := by
  rw [State.unwrittenRead_access hp, State.unwrittenReadBy_illegal (acc.slot_eq_cmd_iff.2 ⟨hb, ho⟩) hk hl]

end

theorem firstUnwritten_readSet_a {s : State} {i : Instr} (hi : .a ∈ readSet i) (hw : s.written.a = false) :
    s.firstUnwritten (readSet i) = some .a := by
  obtain ⟨regs, h⟩ := readSet_of_a_mem hi
  rw [h]
  exact State.firstUnwritten_cons_of_unwritten regs hw

theorem firstUnwritten_readSet_b {s : State} {i : Instr} (hi : .b ∈ readSet i) (ha : i = .copy ∨ s.written.a = true)
    (hw : s.written.b = false) : s.firstUnwritten (readSet i) = some .b := by
  obtain h | ⟨hne, h⟩ := readSet_of_b_mem hi
  · rw [h]
    exact State.firstUnwritten_cons_of_unwritten [] hw
  · rw [h, State.firstUnwritten_cons_of_written (reg := .a) [.b] (ha.resolve_left hne)]
    exact State.firstUnwritten_cons_of_unwritten [] hw

theorem firstUnwritten_readSet_w {s : State} {i : Instr} (hi : .w ∈ readSet i) (hw : s.written.w = false) :
    s.firstUnwritten (readSet i) = some .w := by
  rw [readSet_of_w_mem hi]
  exact State.firstUnwritten_cons_of_unwritten [] hw

/-- Settles O27, from the first unwritten operand of the access. -/
theorem unwrittenReadsFault : Obligations.UnwrittenReadsFault := by
  refine ⟨?_, ?_, ?_⟩
  · intro s acc rest hp hb hk
    have hread : ∀ off reg, slotAt off = some (.data reg) → acc.offset = off → s.written.has reg = false →
        checkedStep s = .fault (.unwrittenRead reg) := by
      rintro _ reg hslot rfl hw
      exact checkedStep_read_unwritten hp hb hslot hk hw
    exact ⟨hread _ .a slotAt_0x00, hread _ .b slotAt_0x08, hread _ .r slotAt_0x10, hread _ .w slotAt_0x18⟩
  · intro s acc rest word i hp ho hb hk hd
    have hfault : ∀ reg, s.firstUnwritten (readSet i) = some reg → checkedStep s = .fault (.unwrittenRead reg) :=
      fun reg h => checkedStep_of_some ((unwrittenRead_command hp ho hb hk hd).trans h)
    exact ⟨fun hi hw => hfault _ (firstUnwritten_readSet_a (a_mem_readSet_iff.2 hi) hw),
      fun hi ha hw => hfault _ (firstUnwritten_readSet_b (b_mem_readSet_iff.2 hi) ha hw),
      fun hi hw => hfault _ (firstUnwritten_readSet_w (w_mem_readSet_iff.2 hi) hw)⟩
  · intro s acc rest word hp ho hb hk hl
    exact ⟨_, checkedStep_next_of_none (unwrittenRead_illegal hp ho hb hk hl) (step_of_illegal hp ho hb hk hl), rfl⟩

/-- The offsets of the data registers (R35). -/
theorem slotAt_data {off : Int} {reg : DataReg} (h : slotAt off = some (.data reg)) :
    off = 0x00 ∧ reg = .a ∨ off = 0x08 ∧ reg = .b ∨ off = 0x10 ∧ reg = .r ∨ off = 0x18 ∧ reg = .w := by
  simpa using slotAt_cases h

theorem operand_cases {i : Instr} {reg : DataReg} (h : reg ∈ readSet i) :
    reg = .a ∧ (i ∈ [Instr.tou32, .toi32, .cmp, .scmp, .add, .sub, .mul, .div, .divmod, .neg, .sadd, .ssub, .smul,
        .sdiv] ∨ ∃ n, i = .shl n) ∨
      reg = .b ∧ i ∈ [Instr.copy, .cmp, .scmp, .add, .sub, .mul, .div, .divmod, .sadd, .ssub, .smul, .sdiv] ∨
      reg = .w ∧ (i = .fromu32 ∨ i = .fromi32) := by
  cases reg with
  | a => exact .inl ⟨rfl, a_mem_readSet_iff.1 h⟩
  | b => exact .inr (.inl ⟨rfl, b_mem_readSet_iff.1 h⟩)
  | r => exact absurd h (r_notMem_readSet i)
  | w => exact .inr (.inr ⟨rfl, w_mem_readSet_iff.1 h⟩)

/-- Where the checked step is not an UnwrittenRead, no unwritten register is read. -/
theorem unwrittenRead_eq_none {s : State} (h : ∀ reg, checkedStep s ≠ .fault (.unwrittenRead reg)) :
    s.unwrittenRead = none :=
  Option.eq_none_iff_forall_ne_some.2 fun reg hr => h reg (checkedStep_of_some hr)

/-- Settles O28: UnwrittenRead arises from `unwrittenRead` alone, and where that is none the two steps agree. -/
theorem checkedStepIsStep : Obligations.CheckedStepIsStep := by
  intro s
  refine ⟨fun t h => ?_, fun f h => ?_, fun reg h => ?_, fun h => ?_⟩
  · have hnone := unwrittenRead_eq_none (s := s) fun reg hr => by cases h.symm.trans hr
    exact ((checkedStep_of_none hnone).1 t).1 h
  · have hnone := unwrittenRead_eq_none (s := s) fun reg hr => by cases h.symm.trans hr
    exact ((checkedStep_of_none hnone).2 f).1 h
  · obtain ⟨acc, rest, hp, hr⟩ := State.unwrittenRead_some ((checkedStep_unwritten_iff s reg).1 h)
    obtain ⟨hw, ⟨hs, hk⟩ | ⟨hs, word, i, hk, hd, hi⟩⟩ := State.unwrittenReadBy_some hr
    · obtain ⟨hb, ho⟩ := (acc.slot_eq_some_iff _).1 hs
      exact ⟨hw, acc, rest, hp, hb, .inl ⟨hk, slotAt_data ho⟩⟩
    · obtain ⟨hb, ho⟩ := acc.slot_eq_cmd_iff.1 hs
      exact ⟨hw, acc, rest, hp, hb, .inr ⟨ho, word, i, hk, hd, operand_cases hi⟩⟩
  · obtain ⟨hnext, hfault⟩ := checkedStep_of_none (unwrittenRead_eq_none h)
    exact ⟨fun t => (hnext t).2, fun f => (hfault f).2⟩

/-! ### Where the checked step goes on -/

theorem checkedStep_goesOn {s : State} (h : s.unwrittenRead = none) (ht : ∃ t, step s = .next t) :
    ∃ t, checkedStep s = .next t ∧ step s = .next t := by
  obtain ⟨t, ht⟩ := ht
  exact ⟨t, checkedStep_next_of_none h ht, ht⟩

theorem checkedStep_goesOn_of_no_access {s : State} (h : ∀ acc rest, s.port ≠ .access acc :: rest) :
    ∃ t, checkedStep s = .next t ∧ step s = .next t := by
  refine checkedStep_goesOn (State.unwrittenRead_of_no_access h) ?_
  rcases hp : s.port with _ | ⟨acc | _, rest⟩
  · exact ⟨_, step_idle hp⟩
  · exact absurd hp (h acc rest)
  · exact ⟨_, step_reset hp⟩

section
variable {s : State} {acc : Access} {rest : List PortEvent}

theorem checkedStep_goesOn_access {slot : Slot} (hp : s.port = .access acc :: rest) (hs : acc.slot = some slot)
    (h : s.unwrittenReadBy acc = none) : ∃ t, checkedStep s = .next t ∧ step s = .next t :=
  checkedStep_goesOn ((State.unwrittenRead_access hp).trans h) (step_isNext_of_slot hp hs)

/-- A host read goes on, unless it is one of an unwritten data register. -/
theorem checkedStep_goesOn_read {slot : Slot} (hp : s.port = .access acc :: rest) (hs : acc.slot = some slot)
    (hk : acc.kind = .read) (h : ∀ reg, slot = .data reg → s.written.has reg = true) :
    ∃ t, checkedStep s = .next t ∧ step s = .next t := by
  refine checkedStep_goesOn_access hp hs ?_
  cases slot with
  | data reg =>
    rw [State.unwrittenReadBy_read hs hk]
    exact State.firstUnwritten_cons_of_written [] (h reg rfl)
  | cmd | status | reserved => exact State.unwrittenReadBy_read_other hs nofun hk

/-- A host write goes on, unless it is one to CMD. -/
theorem checkedStep_goesOn_write {slot : Slot} {v : Word} (hp : s.port = .access acc :: rest)
    (hs : acc.slot = some slot) (hk : acc.kind = .write v) (hne : slot ≠ .cmd) :
    ∃ t, checkedStep s = .next t ∧ step s = .next t :=
  checkedStep_goesOn_access hp hs (State.unwrittenReadBy_write_other hs hne hk)

theorem checkedStep_goesOn_command {word : Word} {i : Instr} (hp : s.port = .access acc :: rest)
    (hs : acc.slot = some .cmd) (hk : acc.kind = .write word) (hd : decode word = .ok i)
    (h : ∀ reg ∈ readSet i, s.written.has reg = true) : ∃ t, checkedStep s = .next t ∧ step s = .next t := by
  refine checkedStep_goesOn_access hp hs ?_
  rw [State.unwrittenReadBy_command hs hk hd]
  exact State.firstUnwritten_none h

end

theorem readSet_eq_nil {i : Instr} (h : i ∈ [Instr.zero, .clrovf]) : readSet i = [] := by
  fin_cases h <;> rfl

theorem readSet_eq_a {i : Instr} (h : i ∈ [Instr.tou32, .toi32, .neg] ∨ ∃ n, i = .shl n) : readSet i = [.a] := by
  rcases h with h | ⟨n, rfl⟩
  · fin_cases h <;> rfl
  · rfl

theorem readSet_eq_ab {i : Instr}
    (h : i ∈ [Instr.cmp, .scmp, .add, .sub, .mul, .div, .divmod, .sadd, .ssub, .smul, .sdiv]) :
    readSet i = [.a, .b] := by
  fin_cases h <;> rfl

/-- Settles O58: each of the accesses named reads no unwritten register, and its step goes on. -/
theorem checkedStepGoesOn : Obligations.CheckedStepGoesOn := by
  refine ⟨fun s => checkedStep_goesOn_of_no_access, fun s acc rest hp hb => ?_⟩
  have hslot : ∀ off slot, acc.offset = off → slotAt off = some slot → acc.slot = some slot :=
    fun off slot ho hs => (acc.slot_eq_some_iff _).2 ⟨hb, ho ▸ hs⟩
  refine ⟨fun hk h => ?_, fun v hk h => ?_, fun word i hk ho hd h => ?_⟩
  · rcases h with ⟨ho, hw⟩ | ⟨ho, hw⟩ | ⟨ho, hw⟩ | ⟨ho, hw⟩ | ho | ho | ho | ho
    · exact checkedStep_goesOn_read hp (hslot _ _ ho slotAt_0x00) hk fun _ h => by cases h; exact hw
    · exact checkedStep_goesOn_read hp (hslot _ _ ho slotAt_0x08) hk fun _ h => by cases h; exact hw
    · exact checkedStep_goesOn_read hp (hslot _ _ ho slotAt_0x10) hk fun _ h => by cases h; exact hw
    · exact checkedStep_goesOn_read hp (hslot _ _ ho slotAt_0x18) hk fun _ h => by cases h; exact hw
    · exact checkedStep_goesOn_read hp (hslot _ _ ho slotAt_0x20) hk nofun
    · exact checkedStep_goesOn_read hp (hslot _ _ ho slotAt_0x28) hk nofun
    · exact checkedStep_goesOn_read hp (hslot _ _ ho slotAt_0x30) hk nofun
    · exact checkedStep_goesOn_read hp (hslot _ _ ho slotAt_0x38) hk nofun
  · rcases h with ho | ho | ho | ho | ho | ho | ho | ⟨ho, hl⟩
    · exact checkedStep_goesOn_write hp (hslot _ _ ho slotAt_0x00) hk nofun
    · exact checkedStep_goesOn_write hp (hslot _ _ ho slotAt_0x08) hk nofun
    · exact checkedStep_goesOn_write hp (hslot _ _ ho slotAt_0x10) hk nofun
    · exact checkedStep_goesOn_write hp (hslot _ _ ho slotAt_0x18) hk nofun
    · exact checkedStep_goesOn_write hp (hslot _ _ ho slotAt_0x28) hk nofun
    · exact checkedStep_goesOn_write hp (hslot _ _ ho slotAt_0x30) hk nofun
    · exact checkedStep_goesOn_write hp (hslot _ _ ho slotAt_0x38) hk nofun
    · exact checkedStep_goesOn (unwrittenRead_illegal hp ho hb hk hl) ⟨_, step_of_illegal hp ho hb hk hl⟩
  · refine checkedStep_goesOn_command hp (hslot _ _ ho slotAt_0x20) hk hd ?_
    rcases h with hi | ⟨rfl, hb⟩ | ⟨rfl | rfl, hw⟩ | ⟨hi, ha⟩ | ⟨hi, ha, hb⟩
    · simp [readSet_eq_nil hi]
    · simpa [readSet] using hb
    · simpa [readSet] using hw
    · simpa [readSet] using hw
    · simpa [readSet_eq_a hi] using ha
    · simpa [readSet_eq_ab hi] using ⟨ha, hb⟩

end Sys2Proof.Machine
end

section
/-! PROOFS, runs that rest on no unspecified value (spec/10_state.md R31, spec/60_exceptions.md R85). -/

namespace Sys2Proof.Machine

/-! ### Agreement on the written registers is kept by every update -/

namespace AgreeOnWritten

variable {s s' : State}

theorem withPort (h : AgreeOnWritten s s') (rest : List PortEvent) :
    AgreeOnWritten { s with port := rest } { s' with port := rest } :=
  { h with port := rfl }

theorem reply (h : AgreeOnWritten s s') (host : Nat) (k : ReplyKind) :
    AgreeOnWritten (s.reply host k) (s'.reply host k) :=
  { h with replies := congrArg (· ++ _) h.replies }

theorem beginCommand (h : AgreeOnWritten s s') (word : Word) :
    AgreeOnWritten (s.beginCommand word) (s'.beginCommand word) :=
  { h with cmd := rfl, err := rfl, lovf := rfl }

theorem raise (h : AgreeOnWritten s s') (e : ErrCode) : AgreeOnWritten (s.raise e) (s'.raise e) :=
  { h with err := rfl }

theorem ovfEvent (h : AgreeOnWritten s s') (e : Bool) : AgreeOnWritten (s.ovfEvent e) (s'.ovfEvent e) :=
  { h with lovf := rfl, ovf := congrArg (· || e) h.ovf }

theorem clearOvf (h : AgreeOnWritten s s') : AgreeOnWritten s.clearOvf s'.clearOvf :=
  { h with ovf := rfl }

theorem setCmp (h : AgreeOnWritten s s') (c : CmpResult) : AgreeOnWritten (s.setCmp c) (s'.setCmp c) :=
  { h with cmp := rfl }

theorem setX (h : AgreeOnWritten s s') (reg : DataReg) (v : Word) : AgreeOnWritten (s.setX reg v) (s'.setX reg v) where
  written := by simp [h.written]
  regs := by
    intro reg' hw
    by_cases hr : reg' = reg
    · subst hr
      exact s.x_setX_congr s' reg' v
    · obtain ⟨hx, hwr⟩ := s.setX_frame v hr
      rw [hx, (s'.setX_frame v hr).1]
      exact h.regs reg' (hwr ▸ hw)
  cmd := by simp [h.cmd]
  ovf := by simp [h.ovf]
  lovf := by simp [h.lovf]
  err := by simp [h.err]
  cmp := by simp [h.cmp]
  port := by simp [h.port]
  replies := by simp [h.replies]

theorem effect (h : AgreeOnWritten s s') (e : Effect) : AgreeOnWritten (e.apply s) (e.apply s') := by
  cases e with
  | write reg v => exact h.setX reg v
  | arith v event => exact (h.setX .a v).ovfEvent event
  | quotRem q r => exact (h.setX .a q).setX .r r
  | clearOvf => exact h.clearOvf
  | compare c => exact h.setCmp c
  | divZero => exact h.raise .divZero

theorem unwrittenRead (h : AgreeOnWritten s s') : s.unwrittenRead = s'.unwrittenRead :=
  State.unwrittenRead_congr h.port h.written

/-- R81, R97: reset names every value itself. -/
theorem afterReset (h : AgreeOnWritten s s') (rest : List PortEvent) :
    AgreeOnWritten { State.reset with port := rest, replies := s.replies }
      { State.reset with port := rest, replies := s'.replies } :=
  ⟨rfl, fun _ _ => rfl, rfl, rfl, rfl, rfl, rfl, rfl, h.replies⟩

/-- A host that reads no unwritten register reads the same. -/
theorem readSlot (h : AgreeOnWritten s s') {slot : Slot} (hw : ∀ reg, slot = .data reg → s.written.has reg = true) :
    s.readSlot slot = s'.readSlot slot := by
  cases slot with
  | data reg => exact h.regs reg (hw reg rfl)
  | cmd => exact h.cmd
  | status => simp only [State.readSlot, State.status, h.ovf, h.lovf, h.err, h.cmp]
  | reserved => rfl

end AgreeOnWritten

/-! ### One step, and a run -/

/-- The same fault or refusal, or next states that agree on the written registers. -/
inductive SameOutcome {φ : Type} : Host.Outcome State φ Refusal → Host.Outcome State φ Refusal → Prop where
  | next {t t' : State} (h : AgreeOnWritten t t') : SameOutcome (.next t) (.next t')
  | fault (f : φ) : SameOutcome (.fault f) (.fault f)
  | refused (r : Refusal) : SameOutcome (.refused r) (.refused r)

/-- R38: an access that has no slot is one fault, whatever the state. -/
theorem service_unadmitted {acc : Access} (hs : acc.slot = none) : ∃ f, ∀ s, service acc s = .fault f := by
  unfold service
  rw [hs]
  by_cases htouch : acc.touchesWindow = true
  · exact ⟨_, fun _ => if_pos htouch⟩
  · exact ⟨_, fun _ => if_neg htouch⟩

theorem SameOutcome.fault_of_fault {φ : Type} {o o' : Host.Outcome State φ Refusal} {f : φ} (h : SameOutcome o o')
    (ho : o = .fault f) : o' = .fault f := by
  cases h <;> cases ho
  rfl

theorem SameOutcome.next_of_next {φ : Type} {o o' : Host.Outcome State φ Refusal} {t : State} (h : SameOutcome o o')
    (ho : o = .next t) : ∃ t', o' = .next t' ∧ AgreeOnWritten t t' := by
  cases h <;> cases ho
  exact ⟨_, rfl, ‹_›⟩

theorem SameOutcome.replyAfter {o o' : Host.Outcome State Fault Refusal} (h : SameOutcome o o') (host : Nat)
    (k : ReplyKind) : SameOutcome (replyAfter host k o) (replyAfter host k o') := by
  cases h with
  | next h => exact .next (h.reply host k)
  | fault f => exact .fault f
  | refused r => exact .refused r

namespace AgreeOnWritten

variable {s s' : State}

/-- R20: a command whose operands are written does the same in both states. -/
theorem execute (h : AgreeOnWritten s s') (word : Word)
    (hw : ∀ i, decode word = .ok i → ∀ reg ∈ readSet i, s.written.has reg = true) :
    SameOutcome (execute word s) (execute word s') := by
  rcases hd : decode word with e | i
  · rw [execute_of_error hd, execute_of_error hd]
    exact .next ((h.beginCommand word).raise .illegal)
  · rw [execute_of_decode hd, execute_of_decode hd, ← effectOf_congr fun reg hr => h.regs reg (hw i hd reg hr)]
    exact .next ((h.beginCommand word).effect _)

theorem writeSlot (h : AgreeOnWritten s s') (slot : Slot) (v : Word)
    (hw : slot = .cmd → ∀ i, decode v = .ok i → ∀ reg ∈ readSet i, s.written.has reg = true) :
    SameOutcome (s.writeSlot slot v) (s'.writeSlot slot v) := by
  cases slot with
  | data reg => exact .next (h.setX reg v)
  | cmd => exact h.execute v (hw rfl)
  | status | reserved => exact .next h

theorem service (h : AgreeOnWritten s s') (acc : Access) (hnone : s.unwrittenReadBy acc = none) :
    SameOutcome (service acc s) (service acc s') := by
  rcases hs : acc.slot with _ | slot
  · obtain ⟨f, hf⟩ := service_unadmitted hs
    rw [hf, hf]
    exact .fault f
  · rcases hk : acc.kind with _ | v
    · rw [service_read hs hk, service_read hs hk, h.readSlot]
      · exact .next (h.reply _ _)
      · rintro reg rfl
        rw [State.unwrittenReadBy_read hs hk, State.firstUnwritten_eq_none_iff] at hnone
        exact hnone reg (List.mem_singleton_self reg)
    · rw [service_write hs hk, service_write hs hk]
      refine (h.writeSlot slot v ?_).replyAfter acc.host .done
      rintro rfl i hd
      rwa [State.unwrittenReadBy_command hs hk hd, State.firstUnwritten_eq_none_iff] at hnone

theorem step (h : AgreeOnWritten s s') (hnone : s.unwrittenRead = none) : SameOutcome (step s) (step s') := by
  rcases hp : s.port with _ | ⟨acc | _, rest⟩ <;> have hp' := h.port.symm.trans hp
  · rw [step_idle hp, step_idle hp']
    exact .next h
  · rw [step_access hp, step_access hp']
    rw [State.unwrittenRead_access hp] at hnone
    exact (h.withPort rest).service acc hnone
  · rw [step_reset hp, step_reset hp']
    exact .next (h.afterReset rest)

theorem checkedStep (h : AgreeOnWritten s s') : SameOutcome (checkedStep s) (checkedStep s') := by
  unfold Machine.checkedStep
  rw [← h.unwrittenRead]
  rcases hr : s.unwrittenRead with _ | reg
  · have hstep := h.step hr
    dsimp only
    generalize Machine.step s = o, Machine.step s' = o' at hstep
    cases hstep with
    | next h => exact .next h
    | fault f => exact .fault _
    | refused r => exact .refused r
  · exact .fault _

theorem checkedRun (h : AgreeOnWritten s s') (k : Nat) : SameOutcome (checkedRun k s) (checkedRun k s') := by
  induction k generalizing s s' with
  | zero => exact .next h
  | succ k ih =>
    unfold Machine.checkedRun
    have hstep := h.checkedStep
    generalize Machine.checkedStep s = o, Machine.checkedStep s' = o' at hstep
    cases hstep with
    | next h => exact ih h
    | fault f => exact .fault f
    | refused r => exact .refused r

end AgreeOnWritten

/-- Settles O29, by induction on the number of steps: each step of the two runs has the same outcome. -/
theorem unwrittenValuesDecideNothing : Obligations.UnwrittenValuesDecideNothing := by
  intro k s s' h
  exact ⟨fun f => (h.checkedRun k).fault_of_fault, fun t => (h.checkedRun k).next_of_next⟩

end Sys2Proof.Machine
end

section
/-! PROOFS, the bytes of a value (spec/20_memory.md R37, spec/30_encoding.md R43). -/

namespace Sys2Proof

open Machine

theorem wordBytes_getElem? (v : Word) {i : Nat} (h : i < 8) : (wordBytes v)[i]? = some (byteOf v i) := by
  interval_cases i <;> rfl

/-- The reading back of R37, in the terms of the reference algorithms' bytes. -/
theorem littleEndian_eq_bytesValue (bs : List Byte) : littleEndian bs = bytesValue (bs.map BitVec.toNat) := by
  induction bs with
  | nil => rfl
  | cons b bs ih => rw [littleEndian, ih, List.map_cons, bytesValue]

theorem littleEndian_wordBytes (v : Word) : littleEndian (wordBytes v) = v.toNat :=
  (littleEndian_eq_bytesValue _).trans (bytesValue_byteNats v)

theorem decodeBytes_wordBytes {v : Word} {i : Instr} (h : decode v = .ok i) (rest : List Byte) :
    decodeBytes (wordBytes v ++ rest) = .ok (i, rest) := by
  have hv : BitVec.ofNat 64 (littleEndian (wordBytes v)) = v := by
    rw [littleEndian_wordBytes, BitVec.ofNat_toNat, BitVec.setWidth_eq]
  rw [← hv] at h
  simp only [wordBytes, List.cons_append, List.nil_append, decodeBytes] at h ⊢
  rw [h]

/-- Settles O5: OP and AMT are bytes 0 and 1 by definition, and the bytes read back give the word. -/
theorem littleEndianBytes : Obligations.LittleEndianBytes := by
  refine ⟨fun v i => ?_, littleEndian_wordBytes, fun v => ⟨rfl, rfl⟩, fun v i rest h => decodeBytes_wordBytes h rest⟩
  rw [wordBytes_getElem? v i.isLt, Option.map_some, byteOf_toNat]

end Sys2Proof
end

section
/-! PROOFS, the port and the register window (spec/20_memory.md R33 to R42). -/

namespace Sys2Proof.Machine

/-! ### What a step does to the port and the replies -/

theorem execute_frame {word : Word} {s t : State} (h : execute word s = .next t) :
    t.port = s.port ∧ t.replies = s.replies := by
  rcases hd : decode word with e | i
  · cases (execute_of_error hd s).symm.trans h
    exact ⟨rfl, rfl⟩
  · cases (execute_of_decode hd s).symm.trans h
    exact ⟨Effect.apply_port _ _, Effect.apply_replies _ _⟩

/-- What a write does to the block leaves the port and the replies alone. -/
theorem State.writeSlot_frame {s t : State} {slot : Slot} {v : Word} (h : s.writeSlot slot v = .next t) :
    t.port = s.port ∧ t.replies = s.replies := by
  cases slot with
  | data reg =>
    cases h
    exact ⟨s.setX_port reg v, s.setX_replies reg v⟩
  | cmd => exact execute_frame h
  | status | reserved =>
    cases h
    exact ⟨rfl, rfl⟩

/-- R33: a serviced access is taken from the port, and its one reply is its data or, for a write, its completion. -/
theorem step_access_next {s t : State} {acc : Access} {rest : List PortEvent} (hp : s.port = .access acc :: rest)
    (h : step s = .next t) : t.port = rest ∧ ∃ k,
      t.replies = s.replies ++ [{ host := acc.host, kind := k }] ∧ (k = .done ↔ acc.kind ≠ .read) := by
  obtain ⟨hidle, -⟩ | ⟨_, hreset, -⟩ | ⟨_, _, slot, hp', -, hk, rfl⟩ | ⟨_, _, slot, v, t', hp', -, hk, hw, rfl⟩ :=
    step_next_cases h
  · cases hp.symm.trans hidle
  · cases hp.symm.trans hreset
  · cases hp.symm.trans hp'
    exact ⟨rfl, _, rfl, iff_of_false nofun fun hne => hne hk⟩
  · cases hp.symm.trans hp'
    obtain ⟨hport, hreplies⟩ := State.writeSlot_frame hw
    exact ⟨hport, .done, by rw [State.reply_eq, hreplies], iff_of_true rfl (by rw [hk]; nofun)⟩

/-- R41: a step takes the first event from the port and no other. -/
theorem step_port {s t : State} (h : step s = .next t) : t.port = s.port.tail := by
  rcases hp : s.port with _ | ⟨acc | _, rest⟩
  · cases (step_idle hp).symm.trans h
    exact hp
  · exact (step_access_next hp h).1
  · cases (step_reset hp).symm.trans h
    rfl

/-- Settles O10, clause by clause from what a step does to the port and the replies. -/
theorem portServicedInOrder : Obligations.PortServicedInOrder := by
  refine ⟨fun s => step_idle, fun s t e rest hp h => ?_, fun s t acc rest hp h => (step_access_next hp h).2,
    fun s t rest hp h => ?_⟩
  · rw [step_port h, hp, List.tail_cons]
  · cases (step_reset hp).symm.trans h
    rfl

/-! ### Which accesses are admitted (R38) -/

theorem slotAt_of_mem_window {off : Int} (h0 : 0 ≤ off) (h64 : off < 64) (h8 : off % 8 = 0) :
    ∃ slot, slotAt off = some slot := by
  have hlt : (off / 8).toNat < slots.length := by simp only [slots, List.length_cons, List.length_nil]; omega
  exact ⟨_, (if_pos ⟨h0, h8⟩).trans (List.getElem?_eq_getElem hlt)⟩

/-- R38: of the accesses that reach the block, those with a slot are the 64-bit ones at a multiple of 8. -/
theorem Access.exists_slot_iff {acc : Access} (h : acc.touchesWindow = true) :
    (∃ slot, acc.slot = some slot) ↔ acc.bytes = 8 ∧ acc.offset % 8 = 0 := by
  obtain ⟨-, hlt, hpos⟩ := acc.touchesWindow_iff.1 h
  simp only [Access.slot_eq_some_iff]
  constructor
  · rintro ⟨slot, hb, hs⟩
    have := slotAt_cases hs
    exact ⟨hb, by omega⟩
  · rintro ⟨hb, h8⟩
    obtain ⟨slot, hs⟩ := slotAt_of_mem_window (by omega : 0 ≤ acc.offset) hlt h8
    exact ⟨slot, hb, hs⟩

/-- R84: the answer to an access that reaches the block and has no slot. -/
theorem step_busError {s : State} {acc : Access} {rest : List PortEvent} (hp : s.port = .access acc :: rest)
    (ht : acc.touchesWindow = true) (hs : acc.slot = none) :
    step s = .fault (.busError acc.offset (8 * acc.bytes)) := by
  rw [step_access hp]
  unfold service
  rw [hs]
  exact if_pos ht

/-- Settles O9: an access that reaches the block goes on when it has a slot, and is a BusError when it has none. -/
theorem onlyWholeRegistersAdmitted : Obligations.OnlyWholeRegistersAdmitted := by
  intro s acc rest hp hpos hlt hend
  have ht := acc.touchesWindow_iff.2 ⟨hpos, hlt, hend⟩
  constructor
  · intro h
    obtain ⟨slot, hs⟩ := (Access.exists_slot_iff ht).2 h
    exact step_isNext_of_slot hp hs
  · intro h
    refine step_busError hp ht (Option.eq_none_iff_forall_ne_some.2 fun slot hs => h ?_)
    exact (Access.exists_slot_iff ht).1 ⟨slot, hs⟩

/-! ### Only accesses with a byte in the window reach the port (R34, R36) -/

theorem step_ne_outsideWindow {s : State} (h : s.PortInWindow) (off : Int) (width : Nat) :
    step s ≠ .fault (.outsideWindow off width) := by
  rcases hp : s.port with _ | ⟨acc | _, rest⟩
  · rw [step_idle hp]
    nofun
  · have ht := h acc (hp ▸ List.mem_cons_self)
    rcases hs : acc.slot with _ | slot
    · rw [step_busError hp ht hs]
      nofun
    · obtain ⟨t, hnext⟩ := step_isNext_of_slot hp hs
      rw [hnext]
      nofun
  · rw [step_reset hp]
    nofun

theorem State.receive_of_touches (s : State) {acc : Access} (h : acc.touchesWindow = true) :
    s.receive acc = { s with port := s.port ++ [.access acc] } :=
  if_pos h

theorem State.receive_of_not_touches (s : State) {acc : Access} (h : ¬ acc.touchesWindow = true) : s.receive acc = s :=
  if_neg h

theorem State.PortInWindow.receive {s : State} (h : s.PortInWindow) (acc : Access) : (s.receive acc).PortInWindow := by
  by_cases ht : acc.touchesWindow = true
  · rw [s.receive_of_touches ht]
    intro acc' hmem
    rcases List.mem_append.1 hmem with hmem | hmem
    · exact h acc' hmem
    · cases List.mem_singleton.1 hmem
      exact ht
  · rwa [s.receive_of_not_touches ht]

/-- Settles O14: a step leaves at the port some of the events that stood there, and the port receives only accesses
that touch the window. -/
theorem portStaysInWindow : Obligations.PortStaysInWindow := by
  refine ⟨fun s => step_ne_outsideWindow, fun s t h hnext acc hmem => ?_, fun s acc h => h.receive acc⟩
  rw [step_port hnext] at hmem
  exact h acc (List.mem_of_mem_tail hmem)

theorem accessAt_base_add (h off n : Nat) (kind : AccessKind) :
    accessAt h (Config.bignumBase + off) n kind = { host := h, offset := off, bytes := n, kind := kind } := by
  simp [accessAt]

/-- R36: an access beside the window has no byte in it. -/
theorem not_touchesWindow_accessAt {addr n : Nat} (h : addr + n ≤ Config.bignumBase ∨ Config.bignumBase + 64 ≤ addr)
    (host : Nat) (kind : AccessKind) : ¬ (accessAt host addr n kind).touchesWindow = true := by
  rw [Access.touchesWindow_iff]
  simp only [accessAt]
  omega

/-- Settles O13, from the offset of an access seen from BIGNUM_BASE. -/
theorem windowAtBase : Obligations.WindowAtBase := by
  refine ⟨Nat.mul_mod_right _ _, fun s h off n v hoff hn => ?_, fun s h addr n v hout => ?_⟩
  · have hreceive : ∀ kind, s.receive (accessAt h (Config.bignumBase + off) n kind) =
        { s with port := s.port ++ [.access { host := h, offset := off, bytes := n, kind := kind }] } := by
      intro kind
      rw [accessAt_base_add, s.receive_of_touches ((Access.touchesWindow_iff _).2 ⟨hn, by dsimp only; omega⟩)]
    exact ⟨hreceive .read, hreceive (.write v)⟩
  · exact ⟨s.receive_of_not_touches (not_touchesWindow_accessAt hout h .read),
      s.receive_of_not_touches (not_touchesWindow_accessAt hout h (.write v))⟩

/-! ### The register map (R35) -/

theorem zext64_eq_append (w : Word32) : zext64 w = 0#32 ++ w :=
  BitVec.setWidth_eq_append (by decide)

theorem low32_eq_ofNat (v : Word) : low32 v = BitVec.ofNat 32 v.toNat :=
  BitVec.eq_of_toNat_eq ((low32_toNat v).trans (BitVec.toNat_ofNat _ _).symm)

/-- Settles O8: a step that reads, writes a data register, writes CMD, or writes what ignores it, at each offset. -/
theorem registerMap : Obligations.RegisterMap := by
  intro s acc rest hp hb
  have hslot : ∀ {off slot}, slotAt off = some slot → acc.offset = off → slotAt acc.offset = some slot :=
    fun hs ho => ho ▸ hs
  constructor
  · intro v hk h
    have hread : ∀ {slot}, slotAt acc.offset = some slot → v = s.readSlot slot → step s = .next { s with
        port := rest, replies := s.replies ++ [{ host := acc.host, kind := .data v }] } := by
      rintro slot hs rfl
      exact step_read hp hb hs hk
    rcases h with ⟨ho, hv⟩ | ⟨ho, hv⟩ | ⟨ho, hv⟩ | ⟨ho, hv⟩ | ⟨ho, hv⟩ | ⟨ho, hv⟩ | ⟨ho, hv⟩ | ⟨ho, hv⟩
    · exact hread (hslot slotAt_0x00 ho) hv
    · exact hread (hslot slotAt_0x08 ho) hv
    · exact hread (hslot slotAt_0x10 ho) hv
    · exact hread (hslot slotAt_0x18 ho) (hv.trans (zext64_eq_append s.w).symm)
    · exact hread (hslot slotAt_0x20 ho) hv
    · exact hread (hslot slotAt_0x28 ho) hv
    · exact hread (hslot slotAt_0x30 ho) hv
    · exact hread (hslot slotAt_0x38 ho) hv
  · intro v hk
    refine ⟨fun ho => ?_, fun ho => ?_, fun ho => ?_, fun ho => ?_, fun ho t ht => ?_, fun ho => ?_⟩
    · exact step_write_data hp hb (hslot slotAt_0x00 ho) hk
    · exact step_write_data hp hb (hslot slotAt_0x08 ho) hk
    · exact step_write_data hp hb (hslot slotAt_0x10 ho) hk
    · rw [step_write_data hp hb (hslot slotAt_0x18 ho) hk, State.setX_w_eq, low32_eq_ofNat]
      rfl
    · rw [step_write_cmd hp ho hb hk, ht]
      rfl
    · rcases ho with ho | ho | ho
      · exact step_write_ignored hp hb (hslot slotAt_0x28 ho) (.inl rfl) hk
      · exact step_write_ignored hp hb (hslot slotAt_0x30 ho) (.inr rfl) hk
      · exact step_write_ignored hp hb (hslot slotAt_0x38 ho) (.inr rfl) hk

/-! ### One access after another -/

theorem slotAt_data_of_offset {off : Int} (h : off = 0x00 ∨ off = 0x08 ∨ off = 0x10 ∨ off = 0x18) :
    ∃ reg, slotAt off = some (.data reg) := by
  rcases h with rfl | rfl | rfl | rfl
  exacts [⟨.a, rfl⟩, ⟨.b, rfl⟩, ⟨.r, rfl⟩, ⟨.w, rfl⟩]

/-- R19: W reads back the low 32 bits of what was written. -/
theorem zext64_low32 (v : Word) : zext64 (low32 v) = BitVec.ofNat 64 (v.toNat % 2 ^ 32) := by
  apply BitVec.eq_of_toNat_eq
  rw [zext64_toNat, low32_toNat, BitVec.toNat_ofNat]
  omega

/-- R19, R41: what a data register holds after a write, by its offset in the window. -/
theorem State.x_setX_of_slotAt (s : State) {off : Int} {reg : DataReg} (v : Word) (h : slotAt off = some (.data reg)) :
    (s.setX reg v).x reg = if off = 0x18 then BitVec.ofNat 64 (v.toNat % 2 ^ 32) else v := by
  rcases slotAt_data h with ⟨rfl, rfl⟩ | ⟨rfl, rfl⟩ | ⟨rfl, rfl⟩ | ⟨rfl, rfl⟩
  case inr.inr.inr => exact zext64_low32 v
  all_goals rfl

/-- R41: a write of a data register and the read behind it, by any hosts. -/
theorem step_write_then_read {s : State} {h h' : Nat} {off : Int} {v : Word} {rest : List PortEvent} {reg : DataReg}
    (hp : s.port = .access { host := h, offset := off, bytes := 8, kind := .write v } ::
      .access { host := h', offset := off, bytes := 8, kind := .read } :: rest)
    (hs : slotAt off = some (.data reg)) :
    ∃ t t', step s = .next t ∧ step t = .next t' ∧ t'.port = rest ∧
      t'.replies = s.replies ++ [{ host := h, kind := .done },
        { host := h', kind := .data (if off = 0x18 then BitVec.ofNat 64 (v.toNat % 2 ^ 32) else v) }] := by
  have hwrite := step_write_data hp rfl hs rfl
  have hport := (step_access_next hp hwrite).1
  refine ⟨_, _, hwrite, step_read hport rfl hs rfl, rfl, ?_⟩
  show (State.setX _ reg v).replies ++ [{ host := h, kind := .done }] ++
    [{ host := h', kind := .data ((State.setX _ reg v).x reg) }] = _
  rw [State.setX_replies, State.x_setX_of_slotAt _ v hs, List.append_assoc, List.singleton_append]

/-- Settles O11, at each of the four offsets. -/
theorem readReturnsLastWrite : Obligations.ReadReturnsLastWrite := by
  intro s h h' off v rest hp hoff
  obtain ⟨reg, hs⟩ := slotAt_data_of_offset hoff
  exact step_write_then_read hp hs

/-- R39: a second write of the same value to a data register leaves nothing new. -/
theorem step_write_data_twice {s : State} {acc : Access} {rest : List PortEvent} {reg : DataReg} {v : Word}
    (hp : s.port = .access acc :: .access acc :: rest) (hb : acc.bytes = 8)
    (hs : slotAt acc.offset = some (.data reg)) (hk : acc.kind = .write v) :
    ∃ t t', step s = .next t ∧ step t = .next t' ∧ { t' with port := t.port, replies := t.replies } = t := by
  have hwrite := step_write_data hp hb hs hk
  have hport := (step_access_next hp hwrite).1
  refine ⟨_, _, hwrite, step_write_data hport hb hs hk, ?_⟩
  cases reg <;> rfl

/-- R64: a step in which the host writes the ADD word to CMD. -/
theorem step_add {s : State} {acc : Access} {rest : List PortEvent} (hp : s.port = .access acc :: rest)
    (ho : acc.offset = 0x20) (hb : acc.bytes = 8) (hk : acc.kind = .write 0x0000000000000030#64) :
    ∃ t, step s = .next t ∧ t.port = rest ∧ t.a = s.a + s.b ∧ t.b = s.b := by
  have hstep := step_of_decode hp ho hb hk (i := .add) rfl
  exact ⟨_, hstep, (step_access_next hp hstep).1, bits64_add_u s.a s.b, rfl⟩

/-- Settles O12: ADD once and once more; a register written twice as written once. -/
theorem writesRepeated : Obligations.WritesRepeated := by
  intro s acc rest hp hb
  constructor
  · intro ho hk
    obtain ⟨t, hstep, hport, ha, hb₁⟩ := step_add hp ho hb hk
    obtain ⟨t', hstep', -, ha', hb₂⟩ := step_add hport ho hb hk
    exact ⟨t, t', hstep, hstep', by rw [ha', ha, hb₁], hb₂.trans hb₁⟩
  · intro hoff v hk
    obtain ⟨reg, hs⟩ := slotAt_data_of_offset hoff
    exact step_write_data_twice hp hb hs hk

/-! ### Hosts that share the block (R42) -/

/-- R35: a 64-bit access to A. -/
def accessA (host : Nat) (kind : AccessKind) : PortEvent :=
  .access { host := host, offset := 0x00, bytes := 8, kind := kind }

/-- Of two writes of A, a read behind them sees the second, whoever made it. -/
theorem run_write_write_read {s : State} {h₁ h₂ h : Nat} {v₁ v₂ : Word}
    (hp : s.port = [accessA h₁ (.write v₁), accessA h₂ (.write v₂), accessA h .read]) :
    ∃ t, core.run 3 s = .next t ∧ ({ host := h, kind := .data v₂ } : Reply) ∈ t.replies.drop s.replies.length := by
  have hwrite := step_write_data hp rfl slotAt_0x00 rfl
  obtain ⟨t₂, t₃, hstep₂, hstep₃, -, hreplies⟩ :=
    step_write_then_read (step_access_next hp hwrite).1 slotAt_0x00
  refine ⟨t₃, ?_, ?_⟩
  · exact (core_run_succ hwrite 2).trans ((core_run_succ hstep₂ 1).trans (core_run_succ hstep₃ 0))
  · rw [hreplies]
    simp [State.reply_eq]

/-- Settles O57: the first host reads its own value when its write comes second, and the other's when that does. -/
theorem sharedBlockRaces : Obligations.SharedBlockRaces := by
  intro s h h' v v' r hr
  obtain rfl | rfl := List.mem_pair.1 hr
  · obtain ⟨t, hrun, hmem⟩ := run_write_write_read
      (s := { s with port := [accessA h' (.write v'), accessA h (.write r), accessA h .read] }) rfl
    exact ⟨_, t, .right _ (.left _ (.left _ .nil)), hrun, hmem⟩
  · obtain ⟨t, hrun, hmem⟩ := run_write_write_read
      (s := { s with port := [accessA h (.write v), accessA h' (.write r), accessA h .read] }) rfl
    exact ⟨_, t, .left _ (.right _ (.left _ .nil)), hrun, hmem⟩

end Sys2Proof.Machine
end

section
/-! PROOFS, the opcode map (spec/30_encoding.md R43 to R47). -/

namespace Sys2Proof

/-! ### Encoding and decoding a command -/

/-- Settles O1: the fields of a command's word are its own, and the opcode map gives the command back from them. -/
theorem decodeOfEncode : Obligations.DecodeOfEncode :=
  fun _ hwf => decode_encode hwf

/-- R47: a row of the opcode map. -/
theorem decode_eq_ok_iff_row {i : Instr} {row word : Word} (hwf : i.WellFormed) (hrow : encode i = row) :
    decode word = .ok i ↔ word = row := by
  rw [decode_eq_ok_iff_encode, hrow]
  exact and_iff_right hwf

theorem shl_wellFormed_iff {n : Nat} : (Instr.shl n).WellFormed ↔ n < 256 :=
  decide_eq_true_iff

theorem encode_shl_toNat {n : Nat} (h : n < 256) : (encode (.shl n)).toNat = 0x20 + 0x100 * n := by
  rw [encode_toNat]
  show 0x20 + 2 ^ 8 * (n % 2 ^ 8) = _
  omega

/-- R44, R47: SHL's row, with its amount in bits [15:8]. -/
theorem decode_eq_shl_iff {word : Word} {n : Nat} :
    decode word = .ok (.shl n) ↔ n < 256 ∧ word.toNat = 0x20 + 0x100 * n := by
  rw [decode_eq_ok_iff_encode, shl_wellFormed_iff]
  refine and_congr_right fun hn => ?_
  rw [← BitVec.toNat_inj, encode_shl_toNat hn]

/-- Settles O2: SHL's row speaks of the amount; each other row is one word. -/
theorem opcodeMap : Obligations.OpcodeMap := by
  intro w
  refine ⟨?_, ?_, ?_, ?_, ?_, ?_, ?_, ?_, ?_, ?shl, ?_, ?_, ?_, ?_, ?_, ?_, ?_, ?_, ?_, ?_⟩
  case shl => exact fun n => decode_eq_shl_iff
  all_goals exact decode_eq_ok_iff_row rfl rfl

/-- Settles O4: each word written out is a row of the opcode map. -/
theorem writtenOutWords : Obligations.WrittenOutWords := by
  refine ⟨?_, ?_, ?_, ?shl, ?_, ?_, ?_⟩
  case shl => exact decode_eq_shl_iff.2 ⟨by decide, rfl⟩
  all_goals exact (decode_eq_ok_iff_row rfl rfl).2 rfl

/-! ### The legal words -/

theorem mem_opcodes_iff_toNat {op : Byte} : op ∈ opcodes ↔ op.toNat ∈ opcodes.map BitVec.toNat :=
  (List.mem_map_of_injective fun _ _ => BitVec.eq_of_toNat_eq).symm

/-- R46: the rule's three conditions, on the number that the word is. -/
theorem legal_iff_toNat {word : Word} :
    legal word = true ↔
      word.toNat % 2 ^ 8 ∈ opcodes.map BitVec.toNat ∧ word.toNat / 2 ^ 16 = 0 ∧
        (word.toNat / 2 ^ 8 % 2 ^ 8 = 0 ∨ word.toNat % 2 ^ 8 = 0x20) := by
  have hrsv : rsvField word = 0#48 ↔ word.toNat / 2 ^ 16 = 0 := by
    rw [← BitVec.toNat_inj, rsvField_toNat]; rfl
  have hamt : amtField word = 0#8 ↔ word.toNat / 2 ^ 8 % 2 ^ 8 = 0 := by
    rw [← BitVec.toNat_inj, amtField_toNat]; rfl
  have hshl : opField word = opShl ↔ word.toNat % 2 ^ 8 = 0x20 := by
    rw [← BitVec.toNat_inj, opField_toNat]; rfl
  simp only [legal, Bool.and_eq_true, Bool.or_eq_true, beq_iff_eq, List.contains_iff_mem, mem_opcodes_iff_toNat,
    opField_toNat, hrsv, hamt, hshl, and_assoc]

/-- Settles O3: the legal words are those that decode, and Execute raises IllegalCommand on every other. -/
theorem legalWords : Obligations.LegalWords := by
  refine fun w => ⟨legal_iff_toNat, legal_eq_true_iff.1, fun hl s => ?_⟩
  obtain ⟨e, he⟩ := legal_eq_false_iff.1 hl
  exact Machine.execute_of_error he s

end Sys2Proof
end

section
/-! PROOFS, commands at the port, and the pseudo-instructions (spec/30_encoding.md R45, R50, R51). -/

namespace Sys2Proof.Machine

/-- Settles O6: the write executes the word, and the reply follows what that leaves. -/
theorem stepRunsDecodedCommand : Obligations.StepRunsDecodedCommand := by
  intro s acc rest word hp ho hb hk
  have hstep := step_write_cmd hp ho hb hk
  refine ⟨fun i t hd ht => ?_, fun e he => ?_⟩
  · rw [hstep, execute_of_ok hd, State.beginCommand_eq, ht]
    rfl
  · rw [hstep, execute_of_error he]
    rfl

/-! ### A line of R50, as a step -/

/-- What a write leaves in the data registers depends on the data registers alone. -/
theorem State.setX_x_congr {s s' : State} (h : s.x = s'.x) (reg : DataReg) (v : Word) :
    (s.setX reg v).x = (s'.setX reg v).x := by
  funext q
  by_cases hq : q = reg
  · rw [hq, State.x_setX_congr s s']
  · rw [s.x_setX_ne v hq, s'.x_setX_ne v hq, h]

/-- What an effect leaves in the data registers depends on the data registers alone. -/
theorem Effect.x_apply_congr {s s' : State} (h : s.x = s'.x) (e : Effect) : (e.apply s).x = (e.apply s').x := by
  funext q
  by_cases hq : q ∈ e.writes
  · exact e.apply_x_of_mem s s' hq
  · rw [(e.apply_frame s hq).1, (e.apply_frame s' hq).1, h]

section
variable {s : State} {host : Nat} {rest : List PortEvent} {reg : DataReg} {v : Int} {i : Instr}

/-- R50: a line `wr X, v`, with X a data register. -/
theorem step_wr {line : AsmReg} (hp : s.port = .access ((AsmLine.wr line v).access host) :: rest)
    (hreg : slotAt line.offset = some (.data reg)) :
    ∃ t, step s = .next t ∧ t.port = rest ∧ t.x = (s.setX reg (bits64 v)).x := by
  have hstep := step_write_data hp rfl hreg rfl
  have hx := State.setX_x_congr (s := { s with port := rest }) (s' := s) rfl reg (bits64 v)
  exact ⟨_, hstep, (step_access_next hp hstep).1, hx⟩

/-- R50: a line that is a command's mnemonic. -/
theorem step_command (hp : s.port = .access ((AsmLine.command i).access host) :: rest) (hi : i.WellFormed) :
    ∃ t, step s = .next t ∧ t.port = rest ∧ t.x = ((effectOf i s.x).apply s).x := by
  have hstep := step_of_decode hp rfl rfl rfl (decode_encode hi)
  have hx := Effect.x_apply_congr (s := { s with port := rest }.beginCommand (encode i)) (s' := s) rfl (effectOf i s.x)
  exact ⟨_, hstep, (step_access_next hp hstep).1, hx⟩

/-! ### Programs of one line and of two, loaded on an idle port -/

theorem State.load_port_of_idle (hp : s.port = []) (host : Nat) (l : AsmLine) (lines : List AsmLine) :
    (s.load host (l :: lines)).port =
      .access (l.access host) :: lines.map fun l => .access (l.access host) := by
  rw [State.load, hp, List.nil_append, List.map_cons]

theorem State.load_x (s : State) (host : Nat) (lines : List AsmLine) : (s.load host lines).x = s.x := rfl

theorem run_wr (hp : s.port = []) (line : AsmReg) (hreg : slotAt line.offset = some (.data reg)) :
    ∃ t, core.run 1 (s.load host [.wr line v]) = .next t ∧ t.port = [] ∧ t.x = (s.setX reg (bits64 v)).x := by
  obtain ⟨t, hstep, hport, hx⟩ := step_wr (State.load_port_of_idle hp host _ []) hreg
  exact ⟨t, core_run_succ hstep 0, hport, hx.trans (State.setX_x_congr (s.load_x _ _) reg _)⟩

theorem run_command (hp : s.port = []) (hi : i.WellFormed) :
    ∃ t, core.run 1 (s.load host [.command i]) = .next t ∧ t.port = [] ∧ t.x = ((effectOf i s.x).apply s).x := by
  obtain ⟨t, hstep, hport, hx⟩ := step_command (State.load_port_of_idle hp host _ []) hi
  exact ⟨t, core_run_succ hstep 0, hport, hx.trans (Effect.x_apply_congr (s.load_x _ _) _)⟩

/-- A write of a data register, then a command, which finds the value written. -/
theorem run_wr_command (hp : s.port = []) (line : AsmReg) (hreg : slotAt line.offset = some (.data reg))
    (hi : i.WellFormed) :
    ∃ t, core.run 2 (s.load host [.wr line v, .command i]) = .next t ∧ t.port = [] ∧
      t.x = ((effectOf i (s.setX reg (bits64 v)).x).apply (s.setX reg (bits64 v))).x := by
  obtain ⟨t, hstep, hport, hx⟩ := step_wr (State.load_port_of_idle hp host _ [.command i]) hreg
  obtain ⟨t', hstep', hport', hx'⟩ := step_command (rest := []) hport hi
  have hwritten := hx.trans (State.setX_x_congr (s.load_x _ _) reg _)
  refine ⟨t', (core_run_succ hstep 1).trans (core_run_succ hstep' 0), hport', ?_⟩
  rw [hx', hwritten, Effect.x_apply_congr hwritten]

end

/-! ### The values the pseudo-instructions load -/

theorem low32_bits64 (n : Int) : low32 (bits64 n) = BitVec.ofInt 32 n := by
  apply BitVec.eq_of_toNat_eq
  have := bits64_toNat n
  rw [low32_toNat, BitVec.toNat_ofInt]
  omega

/-- R51, R54: LI_U32's value. -/
theorem zext64_low32_bits64 {n : Int} (h0 : 0 ≤ n) (h1 : n ≤ 2 ^ 32 - 1) :
    ((zext64 (low32 (bits64 n))).toNat : Int) = n := by
  have := bits64_toNat n
  rw [zext64_toNat, low32_toNat]
  omega

/-- R51, R55: LI_I32's value, from the 32-bit literal that stands for it. -/
theorem sext64_low32_bits64_emod {n : Int} (h0 : -2 ^ 31 ≤ n) (h1 : n ≤ 2 ^ 31 - 1) :
    (sext64 (low32 (bits64 (n % 2 ^ 32)))).toInt = n := by
  rw [sext64_toInt, low32_bits64, BitVec.toInt_ofInt]
  show (n % (2 ^ 32 : Nat)).bmod (2 ^ 32) = n
  rw [Int.emod_bmod]
  exact Int.bmod_eq_of_le (by omega) (by omega)

/-- Settles O56: each pseudo-instruction is a write of a register, a command, or the one and then the other. -/
theorem pseudoInstructions : Obligations.PseudoInstructions := by
  refine fun s h hp => ⟨fun v hv => ?liU32, fun v hv => ?liI32, fun v hv => ?li, ?mov, ?inc, ?dec⟩
  case liU32 =>
    obtain ⟨h0, h1⟩ := of_decide_eq_true hv
    obtain ⟨t, hrun, hport, hx⟩ := run_wr_command (host := h) (v := v) hp .w slotAt_0x18 (i := .fromu32) rfl
    have ha : t.a = zext64 (low32 (zext64 (low32 (bits64 v)))) := congrFun hx .a
    rw [low32_zext64] at ha
    exact ⟨t, hrun, ha ▸ zext64_low32_bits64 h0 h1, congrFun hx .b, hport⟩
  case liI32 =>
    obtain ⟨h0, h1⟩ := of_decide_eq_true hv
    obtain ⟨t, hrun, hport, hx⟩ := run_wr_command (host := h) (v := v % 2 ^ 32) hp .w slotAt_0x18
      (i := .fromi32) rfl
    have ha : t.a = sext64 (low32 (zext64 (low32 (bits64 (v % 2 ^ 32))))) := congrFun hx .a
    rw [low32_zext64] at ha
    exact ⟨t, hrun, ha ▸ sext64_low32_bits64_emod h0 h1, congrFun hx .b, hport⟩
  case li =>
    obtain ⟨t, hrun, hport, hx⟩ := run_wr (host := h) (v := v) hp .a slotAt_0x00
    exact ⟨t, hrun, congrFun hx .a, congrFun hx .b, hport⟩
  case mov =>
    obtain ⟨t, hrun, hport, hx⟩ := run_command (host := h) hp (i := .copy) rfl
    exact ⟨t, hrun, congrFun hx .a, hport⟩
  case inc =>
    obtain ⟨t, hrun, hport, hx⟩ := run_wr_command (host := h) (v := 1) hp .b slotAt_0x08 (i := .add) rfl
    exact ⟨t, hrun, (congrFun hx .a).trans (bits64_add_u s.a 1#64), congrFun hx .b, hport⟩
  case dec =>
    obtain ⟨t, hrun, hport, hx⟩ := run_wr_command (host := h) (v := 1) hp .b slotAt_0x08 (i := .sub) rfl
    exact ⟨t, hrun, (congrFun hx .a).trans (bits64_sub_u s.a 1#64), congrFun hx .b, hport⟩

end Sys2Proof.Machine
end

section
/-! PROOFS, representation, conversion and indicator control (spec/40_representation.md R52 to R58). -/

namespace Sys2Proof.Machine

/-! ### ZERO, COPY, FROMU32 and FROMI32 -/

theorem exec_zero (s : State) : exec .zero s = .next { s with a := Word.ZERO, written := s.written.mark .a } := rfl

theorem exec_copy (s : State) : exec .copy s = .next { s with a := s.b, written := s.written.mark .a } := rfl

/-- Settles O30: the words are rows of the opcode map, and each command is one write of A. -/
theorem zeroAndCopy : Obligations.ZeroAndCopy :=
  ⟨(decode_eq_ok_iff_row rfl rfl).2 rfl, (decode_eq_ok_iff_row rfl rfl).2 rfl, fun s => ⟨exec_zero s, exec_copy s⟩⟩

/-- Settles O31: the zero extension keeps the unsigned value, the sign extension the signed one. -/
theorem fromConversions : Obligations.FromConversions := by
  refine ⟨(decode_eq_ok_iff_row rfl rfl).2 rfl, (decode_eq_ok_iff_row rfl rfl).2 rfl, fun s => ⟨?_, ?_⟩⟩
  · exact ⟨zext64 s.w, zext64_toNat s.w, exec_fromu32 s⟩
  · exact ⟨sext64 s.w, sext64_toInt s.w, exec_fromi32 s⟩

/-! ### TOU32 and TOI32 -/

/-- The signed value of the low half is the signed value, brought into the range of 32 bits. -/
theorem low32_toInt (v : Word) : (low32 v).toInt = v.toInt.bmod (2 ^ 32) := by
  rw [low32_eq_ofNat, BitVec.toInt_ofNat', BitVec.toInt_eq_toNat_bmod]
  exact (Int.bmod_bmod_of_dvd (by decide)).symm

/-- R57: a signed value that fits 32 bits is kept. -/
theorem low32_toInt_of_fits {v : Word} (h₀ : -2 ^ 31 ≤ v.toInt) (h₁ : v.toInt ≤ 2 ^ 31 - 1) :
    (low32 v).toInt = v.toInt := by
  rw [low32_toInt]
  exact Int.bmod_eq_of_le (by omega) (by omega)

/-- R19: a host reads W with zeros above. -/
theorem State.readSlot_w_toNat (s : State) : (s.readSlot (.data .w)).toNat = s.w.toNat :=
  zext64_toNat s.w

/-- Settles O32: both commands write the low half of A to W. -/
theorem toConversions : Obligations.ToConversions := by
  refine ⟨(decode_eq_ok_iff_row rfl rfl).2 rfl, (decode_eq_ok_iff_row rfl rfl).2 rfl, fun s => ?_⟩
  exact ⟨low32 s.a, low32_toNat s.a, low32_toInt_of_fits, exec_tou32 s, exec_toi32 s,
    (State.readSlot_w_toNat _).trans (low32_toNat s.a)⟩

/-! ### CLROVF -/

theorem exec_clrovf (s : State) : exec .clrovf s = .next { s with ovf := false } := rfl

/-- R58: CLROVF is the only command that clears OVF. -/
theorem eq_clrovf_of_clears_ovf {i : Instr} {s t : State} (h : exec i s = .next t) (hs : s.ovf = true)
    (ht : t.ovf = false) : i = .clrovf := by
  cases (exec_eq_effect i s).symm.trans h
  exact eq_clrovf_of_clearOvf (Effect.eq_clearOvf_of_apply_ovf hs ht)

theorem decode_clrovf : decode 0x000000000000000F#64 = .ok .clrovf :=
  (decode_eq_ok_iff_row rfl rfl).2 rfl

/-- Settles O33: CLROVF's one effect, which no other command has, and its run from the state Execute prepares. -/
theorem clrovfClearsOvf : Obligations.ClrovfClearsOvf := by
  refine ⟨decode_clrovf, exec_clrovf, fun _ _ _ => eq_clrovf_of_clears_ovf, fun s => ?_⟩
  rw [execute_of_ok decode_clrovf, exec_clrovf, State.beginCommand_eq]

end Sys2Proof.Machine
end

section
/-! PROOFS, the comparator (spec/41_compare.md R59 to R61). -/

namespace Sys2Proof.Machine

/-! ### The sign of a difference -/

namespace CmpResult

theorem ofSign_sub (m n : Int) :
    ofSign (m - n) = if m = n then .equal else if n < m then .greater else .less := by
  simp only [ofSign, Int.sub_eq_zero, Int.sub_pos]

theorem ofSign_of_pos {n : Int} (h : 0 < n) : ofSign n = .greater := by
  rw [ofSign, if_neg h.ne', if_pos h]

theorem ofSign_of_neg {n : Int} (h : n < 0) : ofSign n = .less := by
  rw [ofSign, if_neg h.ne, if_neg h.not_gt]

theorem ofSign_eq_equal_iff {n : Int} : ofSign n = .equal ↔ n = 0 := by
  rcases Int.lt_trichotomy n 0 with h | rfl | h
  · simp [ofSign_of_neg h, h.ne]
  · simp [ofSign]
  · simp [ofSign_of_pos h, h.ne']

theorem ofSign_neg (n : Int) : ofSign (-n) = (ofSign n).negate := by
  rcases Int.lt_trichotomy n 0 with h | rfl | h
  · rw [ofSign_of_neg h, ofSign_of_pos (Int.neg_pos_of_neg h), negate]
  · rfl
  · rw [ofSign_of_pos h, ofSign_of_neg (Int.neg_neg_of_pos h), negate]

theorem ofSign_sub_swap (m n : Int) : ofSign (n - m) = (ofSign (m - n)).negate := by
  rw [← Int.neg_sub, ofSign_neg]

/-- R25: negation is two's complement on the codes. -/
theorem code_negate (c : CmpResult) : c.negate.code = -c.code := by
  cases c <;> rfl

/-- R21: exactly one of EQ, GT and LT, from which GE and LE follow. -/
theorem indicators (k : CmpResult) :
    ([k.eq, k.gt, k.lt].filter id).length = 1 ∧ k.ge = (k.eq || k.gt) ∧ k.le = (k.eq || k.lt) := by
  cases k <;> decide

end CmpResult

/-! ### The comparisons, as signs of differences -/

section
variable {a b : Word}

/-- R59. -/
theorem compareUnsigned_eq (a b : Word) : compareUnsigned a b = .ofSign ((a.toNat : Int) - b.toNat) := by
  rw [compareUnsigned, scanBytes_eq, Nat.mod_eq_of_lt a.isLt, Nat.mod_eq_of_lt b.isLt]

theorem compareUnsigned_eq_equal_iff : compareUnsigned a b = .equal ↔ a = b := by
  rw [compareUnsigned_eq, CmpResult.ofSign_eq_equal_iff, Int.sub_eq_zero, Int.natCast_inj, BitVec.toNat_inj]

theorem compareSigned_of_msb_eq (h : a.msb = b.msb) : compareSigned a b = compareUnsigned a b := by
  unfold compareSigned
  cases compareUnsigned a b <;> simp [h]

/-- An operand with the sign bit clear is below one with it set, as an unsigned value. -/
theorem toNat_lt_of_msb {v w : Word} (hv : v.msb = false) (hw : w.msb = true) : v.toNat < w.toNat :=
  (BitVec.toNat_lt_of_msb_false hv).trans_le (BitVec.le_toNat_of_msb_true hw)

theorem compareUnsigned_of_msb_false_true (ha : a.msb = false) (hb : b.msb = true) :
    compareUnsigned a b = .less := by
  have := toNat_lt_of_msb ha hb
  rw [compareUnsigned_eq, CmpResult.ofSign_of_neg (by omega)]

theorem compareUnsigned_of_msb_true_false (ha : a.msb = true) (hb : b.msb = false) :
    compareUnsigned a b = .greater := by
  have := toNat_lt_of_msb hb ha
  rw [compareUnsigned_eq, CmpResult.ofSign_of_pos (by omega)]

theorem compareUnsigned_ne_equal_of_msb_ne (h : a.msb ≠ b.msb) : compareUnsigned a b ≠ .equal :=
  fun hab => h (congrArg BitVec.msb (compareUnsigned_eq_equal_iff.1 hab))

theorem compareSigned_of_msb_false_true (ha : a.msb = false) (hb : b.msb = true) : compareSigned a b = .greater := by
  rw [compareSigned, compareUnsigned_of_msb_false_true ha hb]
  exact if_pos ⟨ha, hb⟩

theorem compareSigned_of_msb_true_false (ha : a.msb = true) (hb : b.msb = false) : compareSigned a b = .less := by
  rw [compareSigned, compareUnsigned_of_msb_true_false ha hb]
  simp [ha, hb]

theorem msb_cases_of_ne (h : a.msb ≠ b.msb) : (a.msb = false ∧ b.msb = true) ∨ (a.msb = true ∧ b.msb = false) := by
  cases ha : a.msb <;> cases hb : b.msb <;> simp_all

theorem compareSigned_of_msb_ne (h : a.msb ≠ b.msb) : compareSigned a b = (compareUnsigned a b).negate := by
  obtain ⟨ha, hb⟩ | ⟨ha, hb⟩ := msb_cases_of_ne h
  · rw [compareSigned_of_msb_false_true ha hb, compareUnsigned_of_msb_false_true ha hb, CmpResult.negate]
  · rw [compareSigned_of_msb_true_false ha hb, compareUnsigned_of_msb_true_false ha hb, CmpResult.negate]

theorem toInt_sub_toInt_of_msb_eq (h : a.msb = b.msb) : a.toInt - b.toInt = (a.toNat : Int) - b.toNat := by
  rw [BitVec.toInt_eq_msb_cond, BitVec.toInt_eq_msb_cond, h]
  split <;> omega

/-- R60: with one sign the signed difference is the unsigned one; with two signs the signs decide. -/
theorem compareSigned_eq (a b : Word) : compareSigned a b = .ofSign (a.toInt - b.toInt) := by
  by_cases h : a.msb = b.msb
  · rw [compareSigned_of_msb_eq h, compareUnsigned_eq, toInt_sub_toInt_of_msb_eq h]
  obtain ⟨ha, hb⟩ | ⟨ha, hb⟩ := msb_cases_of_ne h
  · have := BitVec.toInt_nonneg_of_msb_false ha
    have := BitVec.toInt_neg_of_msb_true hb
    rw [compareSigned_of_msb_false_true ha hb, CmpResult.ofSign_of_pos (by omega)]
  · have := BitVec.toInt_neg_of_msb_true ha
    have := BitVec.toInt_nonneg_of_msb_false hb
    rw [compareSigned_of_msb_true_false ha hb, CmpResult.ofSign_of_neg (by omega)]

theorem compareSigned_eq_equal_iff : compareSigned a b = .equal ↔ a = b := by
  rw [compareSigned_eq, CmpResult.ofSign_eq_equal_iff, Int.sub_eq_zero, BitVec.toInt_inj]

/-! ### Swapped operands -/

theorem compareUnsigned_swap (a b : Word) : compareUnsigned b a = (compareUnsigned a b).negate := by
  rw [compareUnsigned_eq, compareUnsigned_eq, CmpResult.ofSign_sub_swap]

theorem compareSigned_swap (a b : Word) : compareSigned b a = (compareSigned a b).negate := by
  rw [compareSigned_eq, compareSigned_eq, CmpResult.ofSign_sub_swap]

end

/-! ### CMP and SCMP -/

/-- Settles O34: the byte scan is the sign of the unsigned difference. -/
theorem cmpIsUnsignedOrder : Obligations.CmpIsUnsignedOrder := by
  refine ⟨(decode_eq_ok_iff_row rfl rfl).2 rfl, fun s => ?_⟩
  rw [exec_cmp, compareUnsigned_eq, CmpResult.ofSign_sub]
  simp only [Int.natCast_inj, Int.ofNat_lt]

/-- Settles O35: the comparison by sign bits and bytes is the sign of the signed difference. -/
theorem scmpIsSignedOrder : Obligations.ScmpIsSignedOrder := by
  refine ⟨(decode_eq_ok_iff_row rfl rfl).2 rfl, fun s => ?_⟩
  rw [exec_scmp, compareSigned_eq, CmpResult.ofSign_sub]

/-- Settles O36: bit 63 is the sign bit, on which the relation of SCMP to CMP turns. -/
theorem comparatorLaws : Obligations.ComparatorLaws := by
  refine fun s => ⟨_, _, _, _, exec_cmp s, exec_scmp s, exec_cmp _, exec_scmp _, compareUnsigned_eq_equal_iff,
    compareSigned_eq_equal_iff, ?cmpSwap, ?scmpSwap, ?sameSign, ?oppositeSign, CmpResult.indicators⟩
  case cmpSwap => rw [compareUnsigned_swap, CmpResult.code_negate]
  case scmpSwap => rw [compareSigned_swap, CmpResult.code_negate]
  case sameSign => exact fun h => (compareSigned_of_msb_eq h).symm
  case oppositeSign =>
    intro h
    refine ⟨compareUnsigned_ne_equal_of_msb_ne h, ?_⟩
    rw [compareSigned_of_msb_ne h, CmpResult.code_negate]

end Sys2Proof.Machine
end

section
/-! PROOFS, the shifter (spec/42_shift.md R62, R63). Both the rule and the reference algorithm are the shift of bit
vectors, `a <<< n`, for every amount. -/

namespace Sys2Proof.Machine

/-- R62: from 64 up every bit has left the word, so the rule's two branches are one shift. -/
theorem shiftLeft_eq (a : Word) (n : Nat) : shiftLeft a n = a <<< n := by
  unfold shiftLeft
  split
  · next h => exact (BitVec.shiftLeft_eq_zero h).symm
  · have hu : u a * 2 ^ n = ((a.toNat * 2 ^ n : Nat) : Int) := by rw [u_eq]; push_cast; rfl
    apply BitVec.eq_of_toNat_eq
    rw [hu, bits64_natCast, BitVec.toNat_ofNat, BitVec.toNat_shiftLeft, Nat.shiftLeft_eq]

/-! ### The two steps of the byte shifter (R63) -/

/-- R63: the move by whole bytes and the shift by the residual bits make up the whole amount. -/
theorem pow_bytes_mul_pow_bits (n : Nat) : 256 ^ (n / 8) * 2 ^ (n % 8) = 2 ^ n := by
  calc 256 ^ (n / 8) * 2 ^ (n % 8) = 2 ^ (8 * (n / 8) + n % 8) := by rw [pow_add, pow_mul]; norm_num
    _ = 2 ^ n := by rw [Nat.div_add_mod]

/-- R63: the two steps multiply by `2 ^ n`; what is carried out of the top byte is lost. -/
theorem bytesValue_shiftSteps (ds : List Nat) (hd : ∀ d ∈ ds, d < 256) (n : Nat) :
    bytesValue (shiftBits (n % 8) 0 (shiftByteUp^[n / 8] ds)) = bytesValue ds * 2 ^ n % 256 ^ ds.length := by
  obtain ⟨hvalue, hlength⟩ := shiftByteUp_value (n / 8) ds hd
  rw [shiftBits_value, hvalue, hlength, Nat.add_zero, Nat.mod_mul_mod, Nat.mul_assoc, pow_bytes_mul_pow_bits]

theorem refShiftLeft_eq (a : Word) (n : Nat) : refShiftLeft a n = a <<< n := by
  apply BitVec.eq_of_toNat_eq
  have hsize : (256 : Nat) ^ 8 = 2 ^ 64 := by norm_num
  rw [refShiftLeft, ofByteNats, bytesValue_shiftSteps _ (byteNats_lt a), bytesValue_byteNats, byteNats_length, hsize,
    BitVec.toNat_ofNat, Nat.mod_mod, BitVec.toNat_shiftLeft, Nat.shiftLeft_eq]

/-! ### SHL -/

/-- R44, R47: SHL's word, written as a number. -/
theorem decode_shl_word {n : Nat} (hn : n < 256) : decode (BitVec.ofNat 64 (0x20 + 0x100 * n)) = .ok (.shl n) := by
  refine decode_eq_shl_iff.2 ⟨hn, ?_⟩
  rw [BitVec.toNat_ofNat]
  exact Nat.mod_eq_of_lt (by omega)

/-- Settles O37: SHL writes `a <<< n`, whose bits and whose ZERO are those of the shift of bit vectors. -/
theorem shlShiftsLeft : Obligations.ShlShiftsLeft := by
  refine fun n hn => ⟨decode_shl_word hn, fun s => ⟨s.a <<< n, fun j hj => ?bits, fun h => ?zero, ?next⟩⟩
  case bits => simp only [BitVec.getLsbD_shiftLeft, hj, decide_true, Bool.true_and, ← decide_not, Nat.not_lt]
  case zero => exact BitVec.shiftLeft_eq_zero h
  case next => rw [exec_shl, shiftLeft_eq, Written.mark_a]

/-- Settles O50: what SHL writes and what the byte shifter gives are one shift. -/
theorem referenceShifterAgrees : Obligations.ReferenceShifterAgrees := by
  intro s t n _ h
  rw [exec_shl] at h
  cases h
  exact (shiftLeft_eq s.a n).trans (refShiftLeft_eq s.a n).symm

end Sys2Proof.Machine
end

section
/-! PROOFS, the adder and subtractor (spec/43_addsub.md R64 to R67). What the commands write and what the byte
algorithms give are the sum and the difference of bit vectors, with the carry or the borrow as the event. -/

namespace Sys2Proof.Machine

/-! ### The overflow events, on natural numbers -/

theorem aboveU64_add_u (a b : Word) : aboveU64 (u a + u b) = decide (a.toNat + b.toNat > 2 ^ 64 - 1) := by
  rw [Bool.eq_iff_iff, aboveU64_iff, decide_eq_true_iff, u_eq, u_eq]
  omega

theorem aboveU_eq (v w : Word) : aboveU v w = decide (v.toNat > w.toNat) := by
  rw [Bool.eq_iff_iff, aboveU_iff, decide_eq_true_iff]

/-! ### ADD and SUB as operations on bit vectors -/

theorem exec_add_eq (s : State) : exec .add s = .next { s with
    a := s.a + s.b
    written := { s.written with a := true }
    lovf := decide (s.a.toNat + s.b.toNat > 2 ^ 64 - 1)
    ovf := s.ovf || decide (s.a.toNat + s.b.toNat > 2 ^ 64 - 1) } := by
  rw [exec_add, bits64_add_u, aboveU64_add_u, Written.mark_a]

theorem exec_sub_eq (s : State) : exec .sub s = .next { s with
    a := s.a - s.b
    written := { s.written with a := true }
    lovf := decide (s.b.toNat > s.a.toNat)
    ovf := s.ovf || decide (s.b.toNat > s.a.toNat) } := by
  rw [exec_sub, bits64_sub_u, aboveU_eq, Written.mark_a]

/-- R64: the sum modulo 2^64. -/
theorem add_eq_ofNat (a b : Word) : a + b = BitVec.ofNat 64 ((a.toNat + b.toNat) % 2 ^ 64) := by
  rw [← BitVec.toNat_add, BitVec.ofNat_toNat, BitVec.setWidth_eq]

theorem sub_eq_ofNat_of_le {a b : Word} (h : b.toNat ≤ a.toNat) : a - b = BitVec.ofNat 64 (a.toNat - b.toNat) := by
  rw [← BitVec.toNat_sub_of_le h, BitVec.ofNat_toNat, BitVec.setWidth_eq]

/-- R65: a negative difference comes out 2^64 higher. -/
theorem sub_eq_ofNat_of_lt {a b : Word} (h : a.toNat < b.toNat) :
    a - b = BitVec.ofNat 64 (2 ^ 64 - (b.toNat - a.toNat)) := by
  rw [← BitVec.toNat_sub_of_lt h, BitVec.ofNat_toNat, BitVec.setWidth_eq]

/-- Settles O38: ADD writes the sum of bit vectors, from which subtracting B gives A back. -/
theorem addWraps : Obligations.AddWraps := by
  refine ⟨(decode_eq_ok_iff_row rfl rfl).2 rfl, fun s => ?result, fun s t h _ => ?restored⟩
  case result => rw [exec_add_eq, add_eq_ofNat]
  case restored =>
    cases (exec_add_eq s).symm.trans h
    exact ⟨_, exec_sub_eq _, BitVec.add_sub_cancel s.a s.b⟩

/-- Settles O39: SUB writes the difference of bit vectors, with or without a borrow. -/
theorem subWraps : Obligations.SubWraps := by
  refine ⟨(decode_eq_ok_iff_row rfl rfl).2 rfl, fun s => ?_⟩
  rw [exec_sub_eq]
  split
  · next h => rw [sub_eq_ofNat_of_le h]
  · next h => rw [sub_eq_ofNat_of_lt (Nat.lt_of_not_le h)]

/-! ### The byte loops, without a carry or a borrow out of the top byte -/

/-- The size of a word, in bytes and in bits. -/
theorem pow_byteNats_length (v : Word) : 256 ^ (byteNats v).length = 2 ^ 64 := by
  rw [byteNats_length]; norm_num

theorem ofByteNats_eq_of_bytesValue {ds : List Nat} {v : Word} (h : bytesValue ds = v.toNat) : ofByteNats ds = v := by
  rw [ofByteNats, h, BitVec.ofNat_toNat, BitVec.setWidth_eq]

/-- R66 step 3: a sum below 2^64 leaves no carry, and the "backstop" never fires. -/
theorem addBytes_byteNats {a b : Word} (h : a.toNat + b.toNat < 2 ^ 64) :
    ofByteNats (addBytes 0 (byteNats a) (byteNats b)).1 = a + b ∧ (addBytes 0 (byteNats a) (byteNats b)).2 = 0 := by
  have hvalue := addBytes_value (byteNats a) (byteNats b) 0 rfl
  rw [bytesValue_byteNats, bytesValue_byteNats, pow_byteNats_length] at hvalue
  have hcarry : (addBytes 0 (byteNats a) (byteNats b)).2 = 0 := by omega
  refine ⟨ofByteNats_eq_of_bytesValue ?_, hcarry⟩
  rw [BitVec.toNat_add_of_lt h]
  omega

/-- R67 steps 2 and 3: a subtrahend that is not above the minuend borrows nothing from beyond the top byte. -/
theorem subBytes_byteNats {a b : Word} (h : b.toNat ≤ a.toNat) :
    ofByteNats (subBytes 8 (byteNats a) (byteNats b)).1 = a - b ∧
      (subBytes 8 (byteNats a) (byteNats b)).2 = false := by
  obtain ⟨hvalue, hborrow⟩ := subBytes_value 8 (byteNats a) (byteNats b) (byteNats_length a) (byteNats_length b)
    (byteNats_lt a) (byteNats_lt b) (by rwa [bytesValue_byteNats, bytesValue_byteNats])
  rw [bytesValue_byteNats, bytesValue_byteNats] at hvalue
  refine ⟨ofByteNats_eq_of_bytesValue ?_, hborrow⟩
  rw [BitVec.toNat_sub_of_le h]
  omega

/-! ### The byte adder (R66) -/

/-- R66 steps 1 and 2: the pre-check is the overflow condition, as the smaller and the larger operand add up to the
sum. -/
theorem precheck_iff (a b : Word) :
    min a.toNat b.toNat > Word.MAX.toNat - max a.toNat b.toNat ↔ a.toNat + b.toNat > 2 ^ 64 - 1 := by
  have hmax : Word.MAX.toNat = 2 ^ 64 - 1 := rfl
  have := a.isLt
  have := b.isLt
  omega

/-- R66 step 2: the corrected wrap formula (90 C1) is the sum modulo 2^64. -/
theorem bits64_wrap (a b : Word) :
    bits64 (((min a.toNat b.toNat : Nat) : Int) - (Word.MAX.toNat - max a.toNat b.toNat : Nat) - 1) = a + b := by
  have hmax : Word.MAX.toNat = 2 ^ 64 - 1 := rfl
  have := a.isLt
  have := b.isLt
  rw [← bits64_add_u, bits64_eq_iff, u_eq, u_eq]
  omega

theorem refAdd_eq (a b : Word) : refAdd a b = (a + b, decide (a.toNat + b.toNat > 2 ^ 64 - 1)) := by
  unfold refAdd
  simp only [precheck_iff, bits64_wrap]
  split
  · next h => rw [decide_eq_true h]
  · next h =>
    have hfits : a.toNat + b.toNat < 2 ^ 64 := by omega
    obtain ⟨hsum, hcarry⟩ := addBytes_byteNats hfits
    rw [hsum, hcarry, decide_eq_false h]
    rfl

/-- Settles O51: what ADD writes and what the byte adder gives are one sum, with one event. -/
theorem referenceAdderAgrees : Obligations.ReferenceAdderAgrees := by
  intro s t h
  cases (exec_add_eq s).symm.trans h
  exact (refAdd_eq s.a s.b).symm

/-! ### The byte subtractor (R67) -/

/-- R67 step 1: the corrected rollover (90 C2) is the difference modulo 2^64. -/
theorem rollover_eq_sub (a b : Word) : Word.MAX - (b - a) + 1#64 = a - b := by
  have hmax : Word.MAX = -1#64 := rfl
  rw [hmax]
  ring

theorem refSub_eq (a b : Word) : refSub a b = (a - b, decide (b.toNat > a.toNat)) := by
  unfold refSub
  split
  · next h =>
    have htop : (b - a).toNat ≤ Word.MAX.toNat := Nat.le_of_lt_succ (b - a).isLt
    simp only [(subBytes_byteNats h.le).1, (subBytes_byteNats htop).1, rollover_eq_sub, decide_eq_true h]
  · next h =>
    obtain ⟨hdiff, hborrow⟩ := subBytes_byteNats (Nat.le_of_not_lt h)
    simp only [hdiff, hborrow, decide_eq_false h]

/-- Settles O52: what SUB writes and what the byte subtractor gives are one difference, with one event. -/
theorem referenceSubtractorAgrees : Obligations.ReferenceSubtractorAgrees := by
  intro s t h
  cases (exec_sub_eq s).symm.trans h
  exact (refSub_eq s.a s.b).symm

end Sys2Proof.Machine
end

section
/-! PROOFS, the multiplier and divider (spec/44_muldiv.md R68 to R73). What the commands write and what the byte
algorithms give are the product, the quotient and the remainder of bit vectors, with a product of more than 64 bits as
the event. -/

namespace Sys2Proof.Machine

/-! ### The unsigned results as operations on bit vectors -/

theorem bits64_mul_u (a b : Word) : bits64 (u a * u b) = a * b := by
  apply BitVec.eq_of_toNat_eq
  rw [u_eq, u_eq, ← Int.natCast_mul, bits64_natCast, BitVec.toNat_ofNat, BitVec.toNat_mul]

theorem bits64_div_u (a b : Word) : bits64 (u a / u b) = a / b := by
  rw [u_eq, u_eq, ← Int.natCast_ediv, bits64_natCast, BitVec.udiv_def]

theorem bits64_mod_u (a b : Word) : bits64 (u a % u b) = a % b := by
  rw [u_eq, u_eq, ← Int.natCast_emod, bits64_natCast, BitVec.umod_def]

theorem aboveU64_mul_u (a b : Word) : aboveU64 (u a * u b) = decide (a.toNat * b.toNat > 2 ^ 64 - 1) := by
  rw [Bool.eq_iff_iff, aboveU64_iff, decide_eq_true_iff, u_eq, u_eq, ← Int.natCast_mul]
  omega

theorem exec_mul_eq (s : State) : exec .mul s = .next { s with
    a := s.a * s.b
    written := { s.written with a := true }
    lovf := decide (s.a.toNat * s.b.toNat > 2 ^ 64 - 1)
    ovf := s.ovf || decide (s.a.toNat * s.b.toNat > 2 ^ 64 - 1) } := by
  rw [exec_mul, bits64_mul_u, aboveU64_mul_u, Written.mark_a]

theorem exec_div_eq {s : State} (h : s.b ≠ 0#64) :
    exec .div s = .next { s with a := s.a / s.b, written := { s.written with a := true } } := by
  rw [exec_div_of_ne s h, bits64_div_u, Written.mark_a]

theorem exec_divmod_eq {s : State} (h : s.b ≠ 0#64) :
    exec .divmod s = .next { s with
      a := s.a / s.b, r := s.a % s.b, written := { s.written with a := true, r := true } } := by
  rw [exec_divmod_of_ne s h, bits64_div_u, bits64_mod_u, Written.mark_a, Written.mark_r]

/-- R68: the product modulo 2^64. -/
theorem mul_eq_ofNat (a b : Word) : a * b = BitVec.ofNat 64 (a.toNat * b.toNat % 2 ^ 64) := by
  rw [← BitVec.toNat_mul, BitVec.ofNat_toNat, BitVec.setWidth_eq]

/-! ### The zero divisor (R70, R82) -/

theorem divides_iff {i : Instr} : divides i = true ↔ i = .div ∨ i = .divmod ∨ i = .sdiv := by
  cases i <;> simp [divides]

/-- R70: a command that divides by ZERO raises DivideByZero and writes nothing else. -/
theorem exec_of_zeroDivisor {i : Instr} {s : State} (hi : divides i = true) (hb : s.b = 0#64) :
    exec i s = .next { s with err := .divZero } := by
  rw [exec_eq_effect, effectOf_of_zeroDivisor hi hb]
  rfl

/-- Settles O43: the commands that divide raise, and the others find ERR = NONE and leave it so. -/
theorem zeroDivisorRaises : Obligations.ZeroDivisorRaises := by
  refine fun s word i hb hd =>
    ⟨fun hi => ?raises, fun hdiv hdivmod hsdiv => ⟨_, execute_of_decode hd s, ?goesOn⟩⟩
  case raises =>
    rw [execute_of_ok hd]
    exact exec_of_zeroDivisor (s := s.beginCommand word) (divides_iff.2 hi) hb
  case goesOn =>
    have hi : ¬ divides i = true := fun h => by simpa [hdiv, hdivmod, hsdiv] using divides_iff.1 h
    rw [err_apply_effectOf i s.x (s.beginCommand_err word), if_neg fun h => hi h.1]

/-! ### MUL, DIV and DIVMOD -/

/-- Settles O40: MUL writes the product of bit vectors. -/
theorem mulWraps : Obligations.MulWraps := by
  refine ⟨(decode_eq_ok_iff_row rfl rfl).2 rfl, fun s => ?_⟩
  rw [exec_mul_eq, mul_eq_ofNat]

/-- Settles O41: DIV writes the quotient of bit vectors, or finds a zero divisor. -/
theorem divQuotient : Obligations.DivQuotient := by
  refine ⟨(decode_eq_ok_iff_row rfl rfl).2 rfl, fun s hb => ?_, fun s => exec_of_zeroDivisor rfl⟩
  rw [exec_div_eq hb, BitVec.udiv_def]

/-- Settles O42: DIVMOD writes the quotient and the remainder of bit vectors, which determine the dividend. -/
theorem divmodQuotientRemainder : Obligations.DivmodQuotientRemainder := by
  refine ⟨(decode_eq_ok_iff_row rfl rfl).2 rfl, fun s hb => ?_, fun s => exec_of_zeroDivisor rfl⟩
  refine ⟨s.a / s.b, s.a % s.b, BitVec.toNat_udiv, BitVec.toNat_umod, ?dividend, ?bound, exec_divmod_eq hb⟩
  case dividend => rw [BitVec.toNat_udiv, BitVec.toNat_umod, Nat.div_add_mod']
  case bound =>
    rw [BitVec.toNat_umod]
    exact Nat.mod_lt _ (BitVec.toNat_pos_of_ne_zero hb)

/-! ### The schoolbook multiplier (R69) -/

/-- R69: what the multiplier has collected once the true sum of the products so far is `sum`. -/
structure Accumulates (sum : Nat) (acc : Word × Bool) : Prop where
  total : acc.1.toNat = sum % 2 ^ 64
  event : acc.2 = true ↔ 2 ^ 64 ≤ sum

/-- R69: the product of one pair of bytes, at its place. -/
def pairTerm (a b : Word) (p : Nat × Nat) : Nat :=
  (byteOf b p.1).toNat * (byteOf a p.2).toNat * 256 ^ (p.1 + p.2)

theorem Accumulates.step {sum : Nat} {acc : Word × Bool} (h : Accumulates sum acc) (a b : Word) (p : Nat × Nat) :
    Accumulates (sum + pairTerm a b p) (mulStep a b acc p) := by
  obtain ⟨htotal, hevent⟩ := mulStep_value a b p acc sum h.total h.event
  exact ⟨htotal, hevent⟩

theorem Accumulates.foldl (a b : Word) (ps : List (Nat × Nat)) {sum : Nat} {acc : Word × Bool}
    (h : Accumulates sum acc) :
    Accumulates (sum + (ps.map (pairTerm a b)).sum) (ps.foldl (mulStep a b) acc) := by
  induction ps generalizing sum acc with
  | nil => exact h
  | cons p ps ih =>
    rw [List.map_cons, List.sum_cons, ← Nat.add_assoc]
    exact ih (h.step a b p)

/-- The products of one byte of B with every byte of A. -/
theorem sum_pairTerm_row (a b : Word) (i : Nat) :
    ((List.range 8).map fun j => pairTerm a b (i, j)).sum = (byteOf b i).toNat * 256 ^ i * a.toNat := by
  calc ((List.range 8).map fun j => pairTerm a b (i, j)).sum
      = ((List.range 8).map fun j => (byteOf b i).toNat * 256 ^ i * ((byteOf a j).toNat * 256 ^ j)).sum := by
        congr 2; funext j; rw [pairTerm]; ring
    _ = _ := by rw [List.sum_map_mul_left, sum_bytes]

/-- R69: the products of all pairs of bytes add up to the product. -/
theorem sum_pairTerm (a b : Word) : (bytePairs.map (pairTerm a b)).sum = a.toNat * b.toNat := by
  calc (bytePairs.map (pairTerm a b)).sum
      = ((List.range 8).map fun i => ((List.range 8).map fun j => pairTerm a b (i, j)).sum).sum := by
        rw [bytePairs, List.map_flatMap, List.flatMap_def, List.sum_flatten, List.map_map]
        simp only [Function.comp_def, List.map_map]
    _ = ((List.range 8).map fun i => (byteOf b i).toNat * 256 ^ i * a.toNat).sum := by
        simp only [sum_pairTerm_row]
    _ = a.toNat * b.toNat := by rw [List.sum_map_mul_right, sum_bytes, Nat.mul_comm]

theorem refMul_eq (a b : Word) : refMul a b = (a * b, decide (a.toNat * b.toNat > 2 ^ 64 - 1)) := by
  have hstart : Accumulates 0 (Word.ZERO, false) := ⟨rfl, iff_of_false nofun (by omega)⟩
  obtain ⟨htotal, hevent⟩ := hstart.foldl a b bytePairs
  rw [Nat.zero_add, sum_pairTerm] at htotal hevent
  refine Prod.ext (BitVec.eq_of_toNat_eq ?_) (Bool.eq_iff_iff.2 ?_)
  · rw [BitVec.toNat_mul]
    exact htotal
  · rw [decide_eq_true_iff]
    exact hevent.trans (by omega)

/-- Settles O53: what MUL writes and what the schoolbook multiplier gives are one product, with one event. -/
theorem referenceMultiplierAgrees : Obligations.ReferenceMultiplierAgrees := by
  intro s t h
  cases (exec_mul_eq s).symm.trans h
  exact (refMul_eq s.a s.b).symm

/-! ### The restoring divider (R73) -/

/-- R73: what the divider holds once it has brought down the bytes of `a` from byte `n` up: the quotient and the
remainder of the number that they are. -/
structure DividedDownTo (a b : Word) (n : Nat) (acc : Word × Word) : Prop where
  quotient : acc.1.toNat = a.toNat / 256 ^ n / b.toNat
  remainder : acc.2.toNat = a.toNat / 256 ^ n % b.toNat

/-- The bytes from byte `i` up are those above it, moved up, and byte `i`. -/
theorem toNat_div_pow (a : Word) (i : Nat) :
    a.toNat / 256 ^ i = a.toNat / 256 ^ (i + 1) * 256 + (byteOf a i).toNat := by
  have hpow : (2 : Nat) ^ (8 * i) = 256 ^ i := by rw [pow_mul]; norm_num
  rw [byteOf_toNat, hpow, pow_succ, ← Nat.div_div_eq_div_mul]
  omega

/-- R73: bringing a byte down below a partial remainder that leaves room for it. -/
theorem toNat_bringDown {x : Word} {d : Byte} (h : x.toNat * 256 + d.toNat < 2 ^ 64) :
    ((x <<< 8) ||| d.setWidth 64).toNat = x.toNat * 256 + d.toNat := by
  have hx : (x <<< 8).toNat = x.toNat <<< 8 := by
    rw [BitVec.toNat_shiftLeft, Nat.shiftLeft_eq, Nat.mod_eq_of_lt ((Nat.le_add_right _ _).trans_lt h)]
  rw [BitVec.toNat_or, hx, BitVec.toNat_setWidth_of_le (by decide), ← Nat.shiftLeft_add_eq_or_of_lt d.isLt,
    Nat.shiftLeft_eq]

/-- R73: appending a digit to a quotient that leaves room for it. -/
theorem toNat_appendDigit {q : Word} {j : Nat} (h : q.toNat * 256 + j < 2 ^ 64) :
    ((q <<< 8) + BitVec.ofNat 64 j).toNat = q.toNat * 256 + j := by
  rw [BitVec.toNat_add, BitVec.toNat_shiftLeft, Nat.shiftLeft_eq, BitVec.toNat_ofNat, ← Nat.add_mod]
  exact Nat.mod_eq_of_lt h

/-- Long division, one digit: the quotient of `p` grows by the digit that its remainder and the next byte give. -/
theorem div_append_byte (p d b : Nat) (hb : 0 < b) :
    (p * 256 + d) / b = p / b * 256 + (p % b * 256 + d) / b ∧ (p * 256 + d) % b = (p % b * 256 + d) % b := by
  have hp : p * 256 + d = p % b * 256 + d + b * (p / b * 256) := by
    conv_lhs => rw [← Nat.mod_add_div p b]
    ring
  rw [hp, Nat.add_mul_div_left _ _ hb, Nat.add_mul_mod_self_left, Nat.add_comm]
  exact ⟨rfl, rfl⟩

/-- R73, one byte position, as numbers, for a partial remainder below the divisor. -/
theorem toNat_divStep {a b q x : Word} {i : Nat} (hx : x.toNat < b.toNat)
    (hop : x.toNat * 256 + (byteOf a i).toNat < 2 ^ 64)
    (hq : q.toNat * 256 + (x.toNat * 256 + (byteOf a i).toNat) / b.toNat < 2 ^ 64) :
    (divStep a b i (q, x)).1.toNat = q.toNat * 256 + (x.toNat * 256 + (byteOf a i).toNat) / b.toNat ∧
      (divStep a b i (q, x)).2.toNat = (x.toNat * 256 + (byteOf a i).toNat) % b.toNat := by
  have hd := (byteOf a i).isLt
  have hvalue := toNat_bringDown hop
  obtain ⟨hrem, hdigit⟩ := divDigit_value b 255 ((x <<< 8) ||| (byteOf a i).setWidth 64) 0 (by omega) (by omega)
  rw [hvalue] at hrem
  rw [hvalue, Nat.zero_add] at hdigit
  refine ⟨?_, hrem⟩
  rw [← hdigit] at hq ⊢
  exact toNat_appendDigit hq

theorem DividedDownTo.step {a b : Word} {i : Nat} {acc : Word × Word} (hb : 0 < b.toNat)
    (h : DividedDownTo a b (i + 1) acc) : DividedDownTo a b i (divStep a b i acc) := by
  obtain ⟨q, x⟩ := acc
  obtain ⟨hq, hx⟩ := h
  dsimp only at hq hx
  obtain ⟨hquotient, hremainder⟩ := div_append_byte (a.toNat / 256 ^ (i + 1)) (byteOf a i).toNat b.toNat hb
  rw [← toNat_div_pow, ← hx] at hquotient hremainder
  rw [← hq] at hquotient
  have hprefix : a.toNat / 256 ^ i < 2 ^ 64 := (Nat.div_le_self _ _).trans_lt a.isLt
  have hop : x.toNat * 256 + (byteOf a i).toNat ≤ a.toNat / 256 ^ i := by
    have := Nat.mod_le (a.toNat / 256 ^ (i + 1)) b.toNat
    rw [toNat_div_pow, hx]
    omega
  have hquotientFits : a.toNat / 256 ^ i / b.toNat < 2 ^ 64 := (Nat.div_le_self _ _).trans_lt hprefix
  obtain ⟨hq', hx'⟩ := toNat_divStep (hx ▸ Nat.mod_lt _ hb) (hop.trans_lt hprefix) (hquotient ▸ hquotientFits)
  exact ⟨hq'.trans hquotient.symm, hx'.trans hremainder.symm⟩

theorem DividedDownTo.loop {a b : Word} (hb : 0 < b.toNat) {n : Nat} {acc : Word × Word}
    (h : DividedDownTo a b n acc) : DividedDownTo a b 0 (divLoop a b n acc) := by
  induction n generalizing acc with
  | zero => exact h
  | succ i ih => exact ih (h.step hb)

/-- R73: the loop over all eight bytes, without the shortcuts before it. -/
theorem divLoop_eq (a : Word) {b : Word} (hb : 0 < b.toNat) :
    divLoop a b 8 (Word.ZERO, Word.ZERO) = (a / b, a % b) := by
  have hnone : a.toNat / 256 ^ 8 = 0 := Nat.div_eq_of_lt (a.isLt.trans_le (by norm_num))
  have hstart : DividedDownTo a b 8 (Word.ZERO, Word.ZERO) := by
    constructor <;> rw [hnone]
    · exact (Nat.zero_div _).symm
    · exact (Nat.zero_mod _).symm
  obtain ⟨hquotient, hremainder⟩ := hstart.loop hb
  rw [pow_zero, Nat.div_one] at hquotient hremainder
  exact Prod.ext (BitVec.eq_of_toNat_eq (hquotient.trans BitVec.toNat_udiv.symm))
    (BitVec.eq_of_toNat_eq (hremainder.trans BitVec.toNat_umod.symm))

/-- The two shortcuts of R73 give the quotient and the remainder as the loop does. -/
theorem refDivmod_eq (a : Word) {b : Word} (hb : b ≠ 0#64) : refDivmod a b = (a / b, a % b) := by
  have hpos := BitVec.toNat_pos_of_ne_zero hb
  unfold refDivmod
  split
  · next hlt => rw [BitVec.udiv_eq_zero_iff_eq_zero_or_lt.2 (.inr hlt), BitVec.umod_eq_of_lt hlt]
  · split
    · next heq =>
      obtain rfl := BitVec.eq_of_toNat_eq heq
      rw [BitVec.udiv_self, if_neg (by simpa using hb), BitVec.umod_self]
    · exact divLoop_eq a hpos

/-- Settles O54: what DIVMOD writes and what the restoring divider gives are one quotient and one remainder. -/
theorem referenceDividerAgrees : Obligations.ReferenceDividerAgrees := by
  intro s t hb h
  cases (exec_divmod_eq hb).symm.trans h
  exact (refDivmod_eq s.a hb).symm

end Sys2Proof.Machine
end

section
/-! PROOFS, negation and the signed commands (spec/45_signed.md R74 to R80). What the commands write, and what the sign
dispatch gives, are operations on bit vectors: R75's true result modulo 2^64 is `-a`, `a + b`, `a - b`, `a * b` and
`a.sdiv b`. -/

namespace Sys2Proof.Machine

/-! ### The overflow rule (R75) -/

theorem not_inS64_eq (n : Int) : (!inS64 n) = decide (n < -2 ^ 63 ∨ 2 ^ 63 - 1 < n) :=
  Bool.eq_iff_iff.2 ((not_inS64_iff n).trans decide_eq_true_iff.symm)

/-- The overflow condition as the library writes it in `BitVec.saddOverflow` and its like. -/
theorem not_inS64_eq_or (n : Int) : (!inS64 n) = (decide (n ≥ 2 ^ 63) || decide (n < -2 ^ 63)) := by
  rw [not_inS64_eq, ← Bool.decide_or]
  exact decide_eq_decide.2 (by omega)

theorem not_inS64_iff_not_fits (n : Int) : (!inS64 n) = true ↔ ¬ (-2 ^ 63 ≤ n ∧ n ≤ 2 ^ 63 - 1) := by
  rw [not_inS64_iff]
  omega

theorem inS64_toInt (v : Word) : inS64 v.toInt = true :=
  decide_eq_true ⟨BitVec.le_toInt v, Int.le_sub_one_of_lt BitVec.toInt_lt⟩

/-- What a signed command writes to A differs from its true result by a multiple of 2^64. -/
theorem bits64_toInt_sub_emod (n : Int) : ((bits64 n).toInt - n) % 2 ^ 64 = 0 := by
  have hsigned := sv_emod (bits64 n)
  have hunsigned := bits64_toNat n
  rw [sv_eq, u_eq] at hsigned
  omega

/-- R75: each of the five signed commands ends by writing its true result, NEG's rule for MIN included. -/
theorem exec_of_trueResult {i : Instr} {s : State} {n : Int} (h : trueResult i s.a s.b = some (true, n)) :
    exec i s = .next (s.signedResult n) := by
  cases i with
  | neg =>
    cases h
    rw [exec_neg, sv_eq, Bool.eq_iff_iff.2 (beq_min_iff s.a), State.signedResult_eq]
  | sadd => cases h; rw [exec_sadd, sv_eq, sv_eq]
  | ssub => cases h; rw [exec_ssub, sv_eq, sv_eq]
  | smul => cases h; rw [exec_smul, sv_eq, sv_eq]
  | sdiv =>
    by_cases hb : s.b = 0#64
    · rw [trueResult, if_pos hb] at h
      cases h
    · rw [trueResult, if_neg hb] at h
      cases h
      rw [exec_sdiv_of_ne s hb, sv_eq, sv_eq, truncDiv]
  | _ => cases h

/-- Settles O49: the next state of `State.signedResult`, with its event as two comparisons. -/
theorem signedOverflowRule : Obligations.SignedOverflowRule := by
  intro i s n h
  rw [exec_of_trueResult h, State.signedResult_eq, not_inS64_eq, Written.mark_a, bits64]

/-! ### The true results modulo 2^64 -/

section
variable (a b : Word)

theorem bits64_neg_toInt : bits64 (-a.toInt) = -a := by
  rw [bits64, BitVec.ofInt_neg, BitVec.ofInt_toInt]

/-- R76: SADD's bits are those of ADD. -/
theorem bits64_add_toInt : bits64 (a.toInt + b.toInt) = a + b := by
  rw [bits64, BitVec.ofInt_add, BitVec.ofInt_toInt, BitVec.ofInt_toInt]

/-- R77: SSUB's bits are those of SUB. -/
theorem bits64_sub_toInt : bits64 (a.toInt - b.toInt) = a - b := by
  rw [Int.sub_eq_add_neg, bits64, BitVec.ofInt_add, BitVec.ofInt_neg, BitVec.ofInt_toInt, BitVec.ofInt_toInt,
    BitVec.sub_eq_add_neg]

/-- R78: SMUL's bits are those of MUL. -/
theorem bits64_mul_toInt : bits64 (a.toInt * b.toInt) = a * b := by
  rw [bits64, BitVec.ofInt_mul, BitVec.ofInt_toInt, BitVec.ofInt_toInt]

theorem bits64_tdiv_toInt : bits64 (a.toInt.tdiv b.toInt) = a.sdiv b :=
  BitVec.eq_of_toInt_eq (by rw [bits64, BitVec.toInt_ofInt, BitVec.toInt_sdiv])

/-! ### When the true results do not fit -/

/-- R76: a sum does not fit exactly when its sign is not the common sign of the operands. -/
theorem not_inS64_add_iff :
    (!inS64 (a.toInt + b.toInt)) = true ↔ a.msb = b.msb ∧ (a + b).msb ≠ a.msb := by
  have hlib : (!inS64 (a.toInt + b.toInt)) = a.saddOverflow b := not_inS64_eq_or _
  rw [hlib, BitVec.saddOverflow_eq]
  simp

/-- R77: a difference does not fit exactly when the operands' signs differ and its sign is not that of `a`. -/
theorem not_inS64_sub_iff :
    (!inS64 (a.toInt - b.toInt)) = true ↔ a.msb ≠ b.msb ∧ (a - b).msb ≠ a.msb := by
  have hlib : (!inS64 (a.toInt - b.toInt)) = a.ssubOverflow b := not_inS64_eq_or _
  rw [hlib, BitVec.ssubOverflow_eq]
  cases a.msb <;> cases b.msb <;> simp

/-- R79: of the quotients only that of MIN by -1 does not fit. -/
theorem not_inS64_tdiv_iff :
    (!inS64 (a.toInt.tdiv b.toInt)) = true ↔ a = Word.MIN ∧ b = Word.MAX := by
  constructor
  · intro h
    by_contra hne
    have hfits : (a.sdiv b).toInt = a.toInt.tdiv b.toInt :=
      BitVec.toInt_sdiv_of_ne_or_ne a b (not_and_or.1 hne)
    rw [← hfits, inS64_toInt] at h
    cases h
  · rintro ⟨rfl, rfl⟩
    decide

end

/-! ### NEG -/

theorem exec_neg_eq (s : State) : exec .neg s = .next { s with
    a := -s.a
    written := { s.written with a := true }
    lovf := decide (s.a = Word.MIN)
    ovf := s.ovf || decide (s.a = Word.MIN) } := by
  rw [exec_neg, sv_eq, bits64_neg_toInt, Written.mark_a, beq_eq_decide]

/-- Settles O44: NEG writes the negation of bit vectors, which is its own inverse. -/
theorem negNegates : Obligations.NegNegates := by
  refine ⟨(decode_eq_ok_iff_row rfl rfl).2 rfl, fun s => ?result, fun s t h => ?twice⟩
  case result => exact ⟨-s.a, BitVec.toNat_neg s.a, BitVec.toInt_neg_of_ne_intMin, exec_neg_eq s⟩
  case twice =>
    cases (exec_neg_eq s).symm.trans h
    exact ⟨_, exec_neg_eq _, neg_neg s.a⟩

/-! ### SADD, SSUB and SMUL -/

/-- The next state of a signed command with the true result `n`, once the bits of `n` are known. -/
theorem exec_of_trueResult_bits {i : Instr} {s : State} {n : Int} {v : Word}
    (h : trueResult i s.a s.b = some (true, n)) (hv : bits64 n = v) :
    exec i s = .next { s with
      a := v, written := { s.written with a := true }, lovf := !inS64 n, ovf := s.ovf || !inS64 n } := by
  rw [exec_of_trueResult h, State.signedResult_eq, hv, Written.mark_a]

theorem exec_sadd_eq (s : State) : exec .sadd s = .next { s with
    a := s.a + s.b
    written := { s.written with a := true }
    lovf := !inS64 (s.a.toInt + s.b.toInt)
    ovf := s.ovf || !inS64 (s.a.toInt + s.b.toInt) } :=
  exec_of_trueResult_bits rfl (bits64_add_toInt s.a s.b)

theorem exec_ssub_eq (s : State) : exec .ssub s = .next { s with
    a := s.a - s.b
    written := { s.written with a := true }
    lovf := !inS64 (s.a.toInt - s.b.toInt)
    ovf := s.ovf || !inS64 (s.a.toInt - s.b.toInt) } :=
  exec_of_trueResult_bits rfl (bits64_sub_toInt s.a s.b)

theorem exec_smul_eq (s : State) : exec .smul s = .next { s with
    a := s.a * s.b
    written := { s.written with a := true }
    lovf := !inS64 (s.a.toInt * s.b.toInt)
    ovf := s.ovf || !inS64 (s.a.toInt * s.b.toInt) } :=
  exec_of_trueResult_bits rfl (bits64_mul_toInt s.a s.b)

/-- Settles O45: SADD writes the sum of bit vectors, as ADD does. -/
theorem saddResult : Obligations.SaddResult := by
  refine ⟨(decode_eq_ok_iff_row rfl rfl).2 rfl, fun s => ⟨s.a + s.b, !inS64 (s.a.toInt + s.b.toInt), ?value,
    not_inS64_iff_not_fits _, not_inS64_add_iff s.a s.b, fun t h => ?addsBits, exec_sadd_eq s⟩⟩
  case value => rw [← bits64_add_toInt, bits64_toInt_sub_emod]
  case addsBits =>
    cases (exec_add_eq s).symm.trans h
    rfl

/-- Settles O46: SSUB writes the difference of bit vectors, as SUB does. -/
theorem ssubResult : Obligations.SsubResult := by
  refine ⟨(decode_eq_ok_iff_row rfl rfl).2 rfl, fun s => ⟨s.a - s.b, !inS64 (s.a.toInt - s.b.toInt), ?value,
    not_inS64_iff_not_fits _, not_inS64_sub_iff s.a s.b, fun t h => ?subsBits, exec_ssub_eq s⟩⟩
  case value => rw [← bits64_sub_toInt, bits64_toInt_sub_emod]
  case subsBits =>
    cases (exec_sub_eq s).symm.trans h
    rfl

/-- Settles O47: SMUL writes the product of bit vectors, as MUL does. -/
theorem smulResult : Obligations.SmulResult := by
  refine ⟨(decode_eq_ok_iff_row rfl rfl).2 rfl, fun s => ⟨s.a * s.b, !inS64 (s.a.toInt * s.b.toInt), ?value,
    not_inS64_iff_not_fits _, fun t h => ?mulsBits, exec_smul_eq s⟩⟩
  case value => rw [← bits64_mul_toInt, bits64_toInt_sub_emod]
  case mulsBits =>
    cases (exec_mul_eq s).symm.trans h
    rfl

/-! ### SDIV -/

theorem trueResult_sdiv {a b : Word} (hb : b ≠ 0#64) : trueResult .sdiv a b = some (true, a.toInt.tdiv b.toInt) := by
  rw [trueResult, if_neg hb]

theorem exec_sdiv_eq {s : State} (hb : s.b ≠ 0#64) : exec .sdiv s = .next { s with
    a := s.a.sdiv s.b
    written := { s.written with a := true }
    lovf := !inS64 (s.a.toInt.tdiv s.b.toInt)
    ovf := s.ovf || !inS64 (s.a.toInt.tdiv s.b.toInt) } :=
  exec_of_trueResult_bits (trueResult_sdiv hb) (bits64_tdiv_toInt s.a s.b)

/-- R79: a quotient that fits is written as it is. -/
theorem sdiv_toInt_of_inS64 {a b : Word} (h : (!inS64 (a.toInt.tdiv b.toInt)) = false) :
    (a.sdiv b).toInt = a.toInt.tdiv b.toInt := by
  rw [← bits64_tdiv_toInt, ← sv_eq, sv_bits64 (by simpa using h)]

/-- Settles O48: SDIV writes the signed quotient of bit vectors, whose one overflow is MIN by -1, or finds a zero
divisor. -/
theorem sdivResult : Obligations.SdivResult := by
  refine ⟨(decode_eq_ok_iff_row rfl rfl).2 rfl, fun s hb => ?quotient, fun s => exec_of_zeroDivisor rfl⟩
  case quotient =>
    refine ⟨s.a.sdiv s.b, _, not_inS64_tdiv_iff s.a s.b, sdiv_toInt_of_inS64, fun h => ?_, exec_sdiv_eq hb⟩
    obtain ⟨hmin, hmax⟩ := (not_inS64_tdiv_iff s.a s.b).1 h
    rw [hmin, hmax]
    exact BitVec.intMin_sdiv_neg_one

/-! ### The sign dispatch (R80) -/

section
variable {a b : Word}

theorem magnitude_of_msb_false (h : a.msb = false) : magnitude a = a := by
  rw [magnitude, h, if_neg Bool.false_ne_true]

theorem magnitude_of_msb_true (h : a.msb = true) : magnitude a = -a :=
  if_pos h

/-- R80: flipping a magnitude back restores the operand, for MIN too, whose magnitude is its own bit pattern. -/
theorem withSign_magnitude (a : Word) : withSign a.msb (magnitude a) = a := by
  cases h : a.msb with
  | false => exact magnitude_of_msb_false h
  | true => rw [magnitude_of_msb_true h]; exact neg_neg a

theorem magnitude_ne_zero (h : b ≠ 0#64) : magnitude b ≠ 0#64 := by
  intro hzero
  have hb := withSign_magnitude b
  rw [hzero] at hb
  cases hsign : b.msb <;> rw [hsign] at hb <;> exact h hb.symm

/-- R78: the sign of a product is negative when exactly one factor's is. -/
theorem withSign_mul (p q : Bool) (x y : Word) : withSign p x * withSign q y = withSign (p != q) (x * y) := by
  cases p <;> cases q
  · rfl
  · exact mul_neg x y
  · exact neg_mul x y
  · exact neg_mul_neg x y

theorem refSadd_eq (a b : Word) : refSadd a b = a + b := by
  unfold refSadd
  split
  · rw [refAdd_eq]
  · next hb => rw [refSub_eq, magnitude_of_msb_true hb, sub_neg_eq_add]
  · next ha _ => rw [refSub_eq, magnitude_of_msb_true ha, sub_neg_eq_add, add_comm]
  · next ha hb => rw [refAdd_eq, magnitude_of_msb_true ha, magnitude_of_msb_true hb, ← neg_add, neg_neg]

theorem refSsub_eq (a b : Word) : refSsub a b = a - b := by
  unfold refSsub
  split
  · rw [refSub_eq]
  · next hb => rw [refAdd_eq, magnitude_of_msb_true hb, sub_eq_add_neg]
  · next ha _ => rw [refAdd_eq, magnitude_of_msb_true ha, neg_add, neg_neg, sub_eq_add_neg]
  · next ha hb => rw [refSub_eq, magnitude_of_msb_true ha, magnitude_of_msb_true hb, neg_sub_neg]

theorem refSmul_eq (a b : Word) : refSmul a b = a * b := by
  rw [refSmul, refMul_eq, ← withSign_mul, withSign_magnitude, withSign_magnitude]

/-- R79: the signed division of bit vectors is itself a dispatch on the operands' signs. -/
theorem refSdiv_eq (a : Word) (h : b ≠ 0#64) : refSdiv a b = a.sdiv b := by
  rw [refSdiv, refDivmod_eq _ (magnitude_ne_zero h), BitVec.sdiv_eq]
  split
  · next ha hb => rw [ha, hb, magnitude_of_msb_false ha, magnitude_of_msb_false hb]; rfl
  · next ha hb => rw [ha, hb, magnitude_of_msb_false ha, magnitude_of_msb_true hb]; rfl
  · next ha hb => rw [ha, hb, magnitude_of_msb_true ha, magnitude_of_msb_false hb]; rfl
  · next ha hb => rw [ha, hb, magnitude_of_msb_true ha, magnitude_of_msb_true hb]; rfl

end

/-- Settles O55: what each command writes and what its dispatch gives are one operation on bit vectors. -/
theorem signDispatchAgrees : Obligations.SignDispatchAgrees := by
  refine fun s t => ⟨fun h => ?sadd, fun h => ?ssub, fun h => ?smul, fun hb h => ?sdiv⟩
  case sadd =>
    cases (exec_sadd_eq s).symm.trans h
    exact (refSadd_eq s.a s.b).symm
  case ssub =>
    cases (exec_ssub_eq s).symm.trans h
    exact (refSsub_eq s.a s.b).symm
  case smul =>
    cases (exec_smul_eq s).symm.trans h
    exact (refSmul_eq s.a s.b).symm
  case sdiv =>
    cases (exec_sdiv_eq hb).symm.trans h
    exact (refSdiv_eq s.a hb).symm

end Sys2Proof.Machine
end

section
/-! PROOFS, the two errors of a command and the completion of every write to CMD (spec/60_exceptions.md R81 to R88). -/

namespace Sys2Proof.Machine

/-! ### Completion (R33, R86, R88) -/

/-- R45: Execute leaves the word in CMD, whether or not it decodes and whatever it raises. -/
theorem execute_cmd {word : Word} {s t : State} (h : execute word s = .next t) : t.cmd = word := by
  rcases hd : decode word with e | i
  · cases (execute_of_error hd s).symm.trans h
    rfl
  · cases (execute_of_decode hd s).symm.trans h
    exact Effect.apply_cmd _ _

/-- R33: a write to CMD answers with the state that Execute leaves and the reply of its completion. -/
theorem step_cmd_isNext {s : State} {acc : Access} {rest : List PortEvent} {word : Word}
    (hp : s.port = .access acc :: rest) (ho : acc.offset = 0x20) (hb : acc.bytes = 8) (hk : acc.kind = .write word) :
    ∃ t, execute word { s with port := rest } = .next t ∧ step s = .next (t.reply acc.host .done) := by
  obtain ⟨t, ht⟩ := execute_isNext word { s with port := rest }
  exact ⟨t, ht, by rw [step_write_cmd hp ho hb hk, ht, replyAfter_next]⟩

/-- Settles O7: Execute answers next for every word, and leaves the port and the earlier replies to the step. -/
theorem everyCommandWriteCompletes : Obligations.EveryCommandWriteCompletes := by
  intro s acc rest word hp ho hb hk
  obtain ⟨t, ht, hstep⟩ := step_cmd_isNext hp ho hb hk
  obtain ⟨hport, hreplies⟩ := execute_frame ht
  have hcmd := execute_cmd ht
  exact ⟨_, hstep, hcmd, hport, by rw [State.reply_eq, hreplies]⟩

/-! ### Precise errors (R81) -/

/-- R81 to R83: Execute ends in an error only by rejecting the word or by the zero divisor's effect, and either raises
from the state in which the command began. -/
theorem execute_of_err_ne_none {word : Word} {s t : State} (h : execute word s = .next t) (herr : t.err ≠ .none) :
    t = (s.beginCommand word).raise (if legal word = true then .divZero else .illegal) := by
  rcases hl : legal word with _ | _
  · obtain ⟨e, he⟩ := legal_eq_false_iff.1 hl
    cases (execute_of_error he s).symm.trans h
    rfl
  · obtain ⟨i, hi⟩ := legal_eq_true_iff.1 hl
    cases (execute_of_decode hi s).symm.trans h
    obtain hnone | ⟨hdiv, -⟩ := (effectOf i s.x).apply_err (s.beginCommand word)
    · exact absurd (hnone.trans (s.beginCommand_err word)) herr
    · rw [hdiv]
      rfl

/-- Settles O21: the state that raised, with the reply to the access. -/
theorem errorsArePrecise : Obligations.ErrorsArePrecise := by
  intro s acc rest word hp ho hb hk
  obtain ⟨t, ht, hstep⟩ := step_cmd_isNext hp ho hb hk
  refine ⟨_, hstep, fun herr => ?_⟩
  rw [execute_of_err_ne_none ht herr]
  rfl

end Sys2Proof.Machine
end

section
/-! PROOFS, the state after reset (spec/70_reset_and_hazards.md R97). -/

namespace Sys2Proof.Machine

/-- Settles O16: with reset at the port's head, `step_reset` names the step's whole next state. -/
theorem resetIsTheStartState : Obligations.ResetIsTheStartState :=
  fun _ _ hp => step_reset hp

end Sys2Proof.Machine
end
